-- ==== Sys2Proof/Word.lean ====
section
/-! DEFINITION. The one word type of the core: the unsigned 8-bit value (spec/00_scope.md R9, spec/20_memory.md R51). -/

namespace Sys2Proof

/-- `u8`: an unsigned 8-bit value, 0 to 255. Registers, memory bytes, `PC`, `SP`, opcodes, register operands and immediates
are all of this width (R6 `XLEN`, R51). No value of the core is signed (R9). -/
abbrev Byte := BitVec 8

end Sys2Proof
end

