-- ==== Sys2Proof/Machine/Alu.lean ====
section
/-! DEFINITION. The ALU: a pure function over two register values (spec/43_alu.md R103). It produces no flags, and the core
has none (spec/10_state.md R31), so the model has no flag computation at all. -/

namespace Sys2Proof.Machine

/-- The ALU's operations, a closed type, so that UnsupportedOperation can't be reached (R108). -/
inductive AluOp where
  | add | mul
deriving DecidableEq, Repr

/-- `apply(op, a, b)`: the exact sum (R104) or product (R105) of the unsigned values, narrowed modulo 256. -/
def aluApply (op : AluOp) (a b : Byte) : Byte :=
  match op with
  | .add => BitVec.ofNat 8 (a.toNat + b.toNat)
  | .mul => BitVec.ofNat 8 (a.toNat * b.toNat)

end Sys2Proof.Machine
end

