-- ==== Sys2Proof/Config.lean ====
section
/-! DEFINITION. The fixed sizes of the core and its nine mnemonics (spec/00_scope.md R2, R6).

The other parameters of R6 stand where a repair may mend them: `OPCODE` and `ARITY` in Sys2Proof/Decode.lean
(`defaultOpcode`, `arity`), `SP_INIT` and `PC_RESET` in Sys2Proof/Machine/Parameters.lean (`spInit`, `pcReset`).
The spec leaves no value free ("no value is left to 'any value'", spec/93_implementation_defined.md, section 1), so there
is no opaque constant. -/

namespace Sys2Proof

/-- `NREG` (R6): 8 general registers. -/
abbrev Config.nReg : Nat := 8

/-- `MEM_SIZE` (R6): 256 bytes, addresses 0 to 255. -/
abbrev Config.memSize : Nat := 256

/-- `ADDR_MAX` (R6): the highest address, `MEM_SIZE - 1`. -/
abbrev Config.addrMax : Nat := 255

/-- The nine mnemonics of the instruction set, which has no others (R2). -/
inductive Mnemonic where
  | hlt | ldi | prn | mul | add | push | pop | call | ret
deriving DecidableEq, Repr

/-- Every mnemonic once: the keys of the dispatch table (spec/30_encoding.md R69). -/
def Mnemonic.all : List Mnemonic := [.hlt, .ldi, .prn, .mul, .add, .push, .pop, .call, .ret]

end Sys2Proof
end

