-- ==== Sys2Proof/Machine/Parameters.lean ====
section
/-! DEFINITION. The parameters of spec/00_scope.md R6 that are values of a register at reset, named once (R7). -/

namespace Sys2Proof.Machine

/-- `SP_INIT` (R6, R30): the stack pointer of the empty stack, 0xF3. Its value is unaudited in the source
(spec/92_eei_decisions.md D21), so every definition uses this name. UNVERIFIED, unsafe (log 14). -/
def spInit : Byte := 0xF3

/-- `PC_RESET` (R6, R27): the address of the first instruction. UNVERIFIED: the spec's decision D2. Unsafe (log 2). -/
def pcReset : Byte := 0

end Sys2Proof.Machine
end

