-- ==== Sys2Proof/Syntax.lean ====
section
/-! DEFINITION. The instructions: one constructor per row of spec/opcode_table.json, with its operand bytes in encoding
order (spec/30_encoding.md R65, R75). -/

namespace Sys2Proof

/-- An instruction with the operand bytes that follow its opcode. A register operand is the whole byte 0..255, as R66 has
it: the decoder accepts any byte there and the handler checks it (R74), so a constructor holds the byte, not an index. -/
inductive Instr where
  /-- `HLT`: format F0 (R95). -/
  | hlt
  /-- `LDI Rn, Val`: format F2RI, `b1` the register, `b2` the immediate (R100). -/
  | ldi (rn val : Byte)
  /-- `PRN Rn`: format F1R (R96). -/
  | prn (rn : Byte)
  /-- `MUL Ra, Rb`: format F2RR, `ra` source and destination, `rb` source (R106). -/
  | mul (ra rb : Byte)
  /-- `ADD Ra, Rb`: format F2RR, `ra` source and destination, `rb` source (R107). -/
  | add (ra rb : Byte)
  /-- `PUSH Rn`: format F1R (R111). -/
  | push (rn : Byte)
  /-- `POP Rn`: format F1R (R112). -/
  | pop (rn : Byte)
  /-- `CALL Rn`: format F1R, the register holds the target address (R118). -/
  | call (rn : Byte)
  /-- `RET`: format F0 (R119). -/
  | ret
deriving DecidableEq, Repr

end Sys2Proof
end

