-- ==== Sys2Proof/Machine/State.lean ====
section
/-! DEFINITION. The state of the core as plain data (spec/10_state.md), why a step can stop, and the state at
construction (spec/70_reset_and_hazards.md R141). -/

namespace Sys2Proof.Machine

/-- What an OutOfBounds error records (spec/60_exceptions.md R125, R126). -/
inductive BoundsInfo where
  /-- An address outside 0..255. It is a natural number, since the one recorded is past 255 (R9). -/
  | memAddr (a : Nat)
  /-- A register operand byte above 7. -/
  | regIndex (b : Byte)
  /-- PUSH or CALL with `SP = 0`. -/
  | stackOverflow
  /-- POP or RET with `SP = SP_INIT`. -/
  | stackUnderflow
deriving DecidableEq, Repr

/-- An error's kind with its info (R125). LoadError is the loader's and never a status of the core (R129). -/
inductive ErrorReport where
  /-- The fetched byte is no opcode (spec/40_dispatch.md R82). -/
  | unrecognizedOpcode (op : Byte)
  /-- A register index, an address or the stack is out of bounds (R126). -/
  | outOfBounds (info : BoundsInfo)
  /-- The ALU's contract violation. R125 lists the kind, and no step raises it (spec/43_alu.md R108). -/
  | unsupportedOperation
deriving DecidableEq, Repr

/-- The run state of the core (spec/10_state.md R33). -/
inductive Status where
  /-- Constructed, waiting for `run`. -/
  | ready
  /-- Executing steps. -/
  | running
  /-- Ended by HLT. Terminal. -/
  | halted
  /-- Ended by an error. Terminal. -/
  | error (e : ErrorReport)
deriving DecidableEq, Repr

/-- The memory's contents: address and byte pairs in one canonical form (`Memory.wf` in Machine/Ops.lean). An address not
listed reads `Memory.unlisted`. -/
abbrev Memory := List Host.Cell

/-- What an address not listed reads as: 0, the value construction gives every byte (R35, R141). -/
def Memory.unlisted : Byte := 0

/-- The core's whole state: "Nothing else is state" (spec/10_state.md, opening paragraph). -/
structure State where
  /-- The register file `x[0]` .. `x[7]` (R20). -/
  regs : Vector Byte Config.nReg
  /-- `PC`: the address of the next instruction to fetch (R24). -/
  pc : Byte
  /-- `SP`: the address of the top of the stack, `SP_INIT` when the stack is empty (R28). -/
  sp : Byte
  /-- `M[0]` .. `M[255]` (R35). -/
  mem : Memory
  /-- `status` (R33). -/
  status : Status
  /-- `out`: the bytes PRN emitted, oldest first (R34). -/
  out : List Byte
deriving DecidableEq, Repr

/-- Why no step happens. A step happens only while Running (spec/40_dispatch.md R80). Each is raised by the cycle
(`stepWith`) alone, and each is safe: the machine stops where the spec has no step (log 13). An ERROR of the spec is none
of these: it is a next state with status Error. -/
inductive Fault where
  /-- The status is Ready: the core waits for `run`. Raised by the cycle. Safe. -/
  | waitingForRun
  /-- The status is Halted, which is terminal. Raised by the cycle. Safe. -/
  | halted
  /-- The status is Error, which is terminal. Raised by the cycle. Safe. -/
  | stoppedByError (e : ErrorReport)
deriving DecidableEq, Repr

/-- Why an instruction has no meaning in the model. -/
inductive Refusal where
  /-- The instruction is not modelled. Raised by an arm of `exec` that has no meaning yet, of which there is none. Safe. -/
  | notModelled (mnemonic : String)
deriving DecidableEq, Repr

/-- What a step or a handler answers. -/
abbrev StepResult := Host.Outcome State Fault Refusal

/-- The state at construction, before loading (R141). -/
def State.reset : State :=
  { regs := Vector.replicate Config.nReg 0
    pc := pcReset
    sp := spInit
    mem := []
    status := .ready
    out := [] }

end Sys2Proof.Machine
end

