-- ==== Sys2Proof/Machine/Ops.lean ====
section
/-! DEFINITION. The named operations over memory, registers, `PC`, `SP`, `status` and `out` that every handler is written
with, and the one way an error is raised (spec/00_scope.md R10 to R14; spec/20_memory.md R46, R47; spec/40_dispatch.md R86;
spec/60_exceptions.md R132). There is no return from an error: Error is terminal and no instruction runs after it (R133). -/

namespace Sys2Proof.Machine

/-! ## Memory -/

/-- The byte a memory holds at an address. -/
def Memory.get : Memory → Nat → Byte
  | [], _ => Memory.unlisted
  | c :: m, a => if c.1 = a then c.2 else Memory.get m a

/-- A memory without an entry for the address. -/
def Memory.erase (m : Memory) (a : Nat) : Memory := m.filter fun c => c.1 != a

/-- A memory with an entry added in address order. -/
def Memory.insert : Memory → Nat → Byte → Memory
  | [], a, v => [(a, v)]
  | c :: m, a, v => if a < c.1 then (a, v) :: c :: m else c :: Memory.insert m a v

/-- A memory with the byte at an address replaced. Writing what an unlisted address reads as leaves no entry, so that
equal memories stay equal data. -/
def Memory.set (m : Memory) (a : Nat) (v : Byte) : Memory :=
  if v = Memory.unlisted then m.erase a else (m.erase a).insert a v

/-- The canonical form: addresses strictly rising and in 0..255 (R45), no entry equal to what an unlisted address reads. -/
def Memory.wf (m : Memory) : Bool :=
  decide (m.Pairwise fun c d => c.1 < d.1) && m.all fun c => decide (c.1 < Config.memSize) && c.2 != Memory.unlisted

/-- `MemRead(a, 1)` (R46): the bounds check is made at the access boundary. -/
def memRead (m : Memory) (a : Nat) : Except ErrorReport Byte :=
  if a > Config.addrMax then .error (.outOfBounds (.memAddr a)) else .ok (m.get a)

/-- `MemWrite(a, 1, v)` (R47). -/
def memWrite (m : Memory) (a : Nat) (v : Byte) : Except ErrorReport Memory :=
  if a > Config.addrMax then .error (.outOfBounds (.memAddr a)) else .ok (m.set a v)

/-! ## Fields of the state -/

/-- `x[n]` (R10). -/
def State.readReg (s : State) (n : Fin Config.nReg) : Byte := s.regs[n]

/-- `x[n] <- v` (R10). -/
def State.setReg (s : State) (n : Fin Config.nReg) (v : Byte) : State := { s with regs := s.regs.set n v }

/-- `PC <- v` (R10). -/
def State.setPc (s : State) (v : Byte) : State := { s with pc := v }

/-- `SP <- v` (R10). -/
def State.setSp (s : State) (v : Byte) : State := { s with sp := v }

/-- The memory replaced as a whole, by what `memWrite` answers. -/
def State.setMem (s : State) (m : Memory) : State := { s with mem := m }

/-- `status <- st` (R10). -/
def State.setStatus (s : State) (st : Status) : State := { s with status := st }

/-- `emit(v)` (R13): appends to the output list. -/
def State.emit (s : State) (v : Byte) : State := { s with out := s.out ++ [v] }

/-! ## Errors and the sequential advance -/

/-- `raise Kind(info)` (R12, R132): the error is taken by setting `status` to Error and changing nothing else. Writes made
before it stand, since they are in `s`. UNVERIFIED: the state after an error is the spec's decision D8. Unsafe (log 7). -/
def raise (e : ErrorReport) (s : State) : StepResult := .next (s.setStatus (.error e))

/-- `advance(n)` (R86): the next sequential `PC`, without wrap. Past 255 it raises, and the effects made before it stand.
UNVERIFIED: the spec's decision D3. Unsafe (log 3). -/
def advance (n : Nat) (s : State) : StepResult :=
  let npc := s.pc.toNat + n
  if npc > Config.addrMax then raise (.outOfBounds (.memAddr npc)) s else .next (s.setPc (BitVec.ofNat 8 npc))

/-! ## The stack -/

/-- The address the next push writes, `SP - 1`, or StackOverflow when `SP = 0` (spec/44_stack.md R111;
spec/45_subroutine.md R118). UNVERIFIED in that `SP = 0` raises: the spec's decision D6. Unsafe (log 5). -/
def pushSlot (s : State) : Except ErrorReport Byte :=
  if s.sp = 0 then .error (.outOfBounds .stackOverflow) else .ok (s.sp - 1)

/-- Pushes a byte at the slot `pushSlot` gave: `SP <- slot; MemWrite(SP, 1, v)`. -/
def pushAt (slot v : Byte) (s : State) : Except ErrorReport State :=
  match memWrite s.mem slot.toNat v with
  | .error e => .error e
  | .ok m => .ok ((s.setSp slot).setMem m)

/-- Reads the top of the stack, then increments `SP`, or StackUnderflow when `SP >= SP_INIT` (spec/44_stack.md R112;
spec/45_subroutine.md R119). The byte stays in memory. UNVERIFIED in that the empty stack raises: the spec's decision D5.
Unsafe (log 5). -/
def popByte (s : State) : Except ErrorReport (Byte × State) :=
  if s.sp.toNat ≥ spInit.toNat then .error (.outOfBounds .stackUnderflow)
  else
    match memRead s.mem s.sp.toNat with
    | .error e => .error e
    | .ok v => .ok (v, s.setSp (s.sp + 1))

end Sys2Proof.Machine
end

