-- ==== Sys2Proof/Machine/Operands.lean ====
section
/-! DEFINITION. The one operand form that is decoded further: the register operand (spec/40_dispatch.md R84). LDI's
immediate is used as it stands (spec/30_encoding.md R67), and no instruction has another operand form (R65). -/

namespace Sys2Proof.Machine

/-- `reg(b)` (R84): the register a whole operand byte selects. Bytes 8..255 raise, with no masking. UNVERIFIED in that
they raise rather than mask: the spec's decision D17. Unsafe (log 9). -/
def reg (b : Byte) : Except ErrorReport (Fin Config.nReg) :=
  if h : b.toNat < Config.nReg then .ok ⟨b.toNat, h⟩ else .error (.outOfBounds (.regIndex b))

/-- Two register operands, `b1` decoded before `b2`, so that the first invalid one is reported (R84). UNVERIFIED: the order
is the spec's decision D9. Unsafe (log 8). -/
def regPair (b1 b2 : Byte) : Except ErrorReport (Fin Config.nReg × Fin Config.nReg) :=
  match reg b1 with
  | .error e => .error e
  | .ok a =>
    match reg b2 with
    | .error e => .error e
    | .ok b => .ok (a, b)

end Sys2Proof.Machine
end

