-- ==== Sys2Proof/Machine/Arithmetic.lean ====
section
/-! DEFINITION. MUL and ADD (spec/43_alu.md, section 2). -/

namespace Sys2Proof.Machine

/-- The shape both share: decode both registers, write the ALU's result over the first, advance. The operands are the
register values (spec/90_conflicts.md C1), both read before the write. -/
def aluToRegister (op : AluOp) (b1 b2 : Byte) (s : State) : StepResult :=
  match regPair b1 b2 with
  | .error e => raise e s
  | .ok (a, b) => advance 3 (s.setReg a (aluApply op (s.readReg a) (s.readReg b)))

/-- MUL Ra, Rb (R106). -/
def execMul (b1 b2 : Byte) (s : State) : StepResult := aluToRegister .mul b1 b2 s

/-- ADD Ra, Rb (R107). -/
def execAdd (b1 b2 : Byte) (s : State) : StepResult := aluToRegister .add b1 b2 s

end Sys2Proof.Machine
end

