-- ==== Sys2Proof/Machine/LoadImmediate.lean ====
section
/-! DEFINITION. LDI (spec/42_load_immediate.md). -/

namespace Sys2Proof.Machine

/-- LDI Rn, Val (R100): the immediate byte goes into the register as it stands. -/
def execLdi (b1 b2 : Byte) (s : State) : StepResult :=
  match reg b1 with
  | .error e => raise e s
  | .ok n => advance 3 (s.setReg n b2)

end Sys2Proof.Machine
end

