-- ==== Sys2Proof/Machine/Stack.lean ====
section
/-! DEFINITION. PUSH and POP (spec/44_stack.md). Push decrements then writes, pop reads then increments
(spec/90_conflicts.md C2, C3). -/

namespace Sys2Proof.Machine

/-- PUSH Rn (R111). -/
def execPush (b1 : Byte) (s : State) : StepResult :=
  match reg b1 with
  | .error e => raise e s
  | .ok n =>
    match pushSlot s with
    | .error e => raise e s
    | .ok slot =>
      match pushAt slot (s.readReg n) s with
      | .error e => raise e s
      | .ok t => advance 2 t

/-- POP Rn (R112). -/
def execPop (b1 : Byte) (s : State) : StepResult :=
  match reg b1 with
  | .error e => raise e s
  | .ok n =>
    match popByte s with
    | .error e => raise e s
    | .ok (v, t) => advance 2 (t.setReg n v)

end Sys2Proof.Machine
end

