-- ==== Sys2Proof/Machine/Subroutine.lean ====
section
/-! DEFINITION. CALL and RET (spec/45_subroutine.md). -/

namespace Sys2Proof.Machine

/-- CALL's return address, the address just after its operand byte, or the error when that is no byte (R118;
spec/90_conflicts.md C5). UNVERIFIED in that 256 raises: the spec's decision D4. Unsafe (log 4). -/
def returnAddress (s : State) : Except ErrorReport Byte :=
  let ret := s.pc.toNat + 2
  if ret > Config.addrMax then .error (.outOfBounds (.memAddr ret)) else .ok (BitVec.ofNat 8 ret)

/-- CALL Rn (R118): the checks in the order register, stack bound, return address (R91), then the push of the return
address and the jump to the register's value. -/
def execCall (b1 : Byte) (s : State) : StepResult :=
  match reg b1 with
  | .error e => raise e s
  | .ok n =>
    match pushSlot s with
    | .error e => raise e s
    | .ok slot =>
      match returnAddress s with
      | .error e => raise e s
      | .ok ret =>
        match pushAt slot ret s with
        | .error e => raise e s
        | .ok t => .next (t.setPc (s.readReg n))

/-- RET (R119): pops the byte on top of the stack into `PC`, whoever pushed it. -/
def execRet (s : State) : StepResult :=
  match popByte s with
  | .error e => raise e s
  | .ok (v, t) => .next (t.setPc v)

end Sys2Proof.Machine
end

