-- ==== Sys2Proof/Machine/System.lean ====
section
/-! DEFINITION. HLT and PRN (spec/41_system.md). -/

namespace Sys2Proof.Machine

/-- HLT (R95): the status becomes Halted and nothing else changes. UNVERIFIED in that `PC` stays: the spec's decision D7.
Unsafe (log 6). -/
def execHlt (s : State) : StepResult := .next (s.setStatus .halted)

/-- PRN Rn (R96): emits the register's value. -/
def execPrn (b1 : Byte) (s : State) : StepResult :=
  match reg b1 with
  | .error e => raise e s
  | .ok n => advance 2 (s.emit (s.readReg n))

end Sys2Proof.Machine
end

