-- ==== Sys2Proof/Machine/Dispatch.lean ====
section
/-! DEFINITION. The dispatch of an instruction to its one handler (spec/40_dispatch.md R85). `exec` is a handler run after
fetch, decode and operand reads; it does not look at the status, which the cycle checks (R80; log 15). -/

namespace Sys2Proof.Machine

def exec (i : Instr) (s : State) : Host.Outcome State Fault Refusal :=
  match i with
  | .hlt => Sys2Proof.Machine.execHlt s
  | .ldi rn val => Sys2Proof.Machine.execLdi rn val s
  | .prn rn => Sys2Proof.Machine.execPrn rn s
  | .mul ra rb => Sys2Proof.Machine.execMul ra rb s
  | .add ra rb => Sys2Proof.Machine.execAdd ra rb s
  | .push rn => Sys2Proof.Machine.execPush rn s
  | .pop rn => Sys2Proof.Machine.execPop rn s
  | .call rn => Sys2Proof.Machine.execCall rn s
  | .ret => Sys2Proof.Machine.execRet s

end Sys2Proof.Machine
end

