-- ==== Sys2Proof/WellFormed.lean ====
section
/-! DEFINITION. Which instructions are well formed: every register operand names one of R0 to R7 (spec/30_encoding.md
R66). An ill-formed instruction still decodes and still runs: its handler raises (R74, spec/40_dispatch.md R84). -/

namespace Sys2Proof

/-- The byte selects a register: 0..7 (R66). -/
def isRegister (b : Byte) : Bool := decide (b.toNat < Config.nReg)

/-- The register operands of an instruction, in the order its handler decodes them (R65, R84). An immediate is none. -/
def Instr.registerOperands : Instr → List Byte
  | .hlt => []
  | .ldi rn _ => [rn]
  | .prn rn => [rn]
  | .mul ra rb => [ra, rb]
  | .add ra rb => [ra, rb]
  | .push rn => [rn]
  | .pop rn => [rn]
  | .call rn => [rn]
  | .ret => []

/-- Every register operand is 0..7 (R66). -/
def Instr.wellFormed (i : Instr) : Bool := i.registerOperands.all isRegister

end Sys2Proof
end

