-- ==== Sys2Proof/Decode.lean ====
section
/-! DEFINITION. The opcode map, the decoder (total on any bytes, rejecting by name) and the encoder
(spec/30_encoding.md; spec/40_dispatch.md R81 to R83).

The opcode bytes are the OPEN parameter `OPCODE` (spec/92_eei_decisions.md D1). Decoder and encoder take the map as their
argument `code`; `decode`, `encode` and the names the host fixes use the default map. -/

namespace Sys2Proof

/-- The default opcode bytes (R68). PRESUMED: the spec takes them from general knowledge of the LS-8 teaching ISA, "not in
source". Unsafe (log 1). -/
def defaultOpcode : Mnemonic → Byte
  | .hlt => 0b00000001
  | .ldi => 0b10000010
  | .prn => 0b01000111
  | .mul => 0b10100010
  | .add => 0b10100000
  | .push => 0b01000101
  | .pop => 0b01000110
  | .call => 0b01010000
  | .ret => 0b00010001

/-- `ARITY(m)` (spec/00_scope.md R6): how many operand bytes follow the opcode, a static property of the opcode (R64). -/
def arity : Mnemonic → Nat
  | .hlt => 0
  | .ldi => 2
  | .prn => 1
  | .mul => 2
  | .add => 2
  | .push => 1
  | .pop => 1
  | .call => 1
  | .ret => 0

/-- The row of the opcode table an instruction belongs to. -/
def Instr.mnemonic : Instr → Mnemonic
  | .hlt => .hlt
  | .ldi _ _ => .ldi
  | .prn _ => .prn
  | .mul _ _ => .mul
  | .add _ _ => .add
  | .push _ => .push
  | .pop _ => .pop
  | .call _ => .call
  | .ret => .ret

/-- The operand bytes in encoding order: `b1` at `PC+1`, then `b2` at `PC+2` (R65, R75). -/
def Instr.operands : Instr → List Byte
  | .hlt => []
  | .ldi rn val => [rn, val]
  | .prn rn => [rn]
  | .mul ra rb => [ra, rb]
  | .add ra rb => [ra, rb]
  | .push rn => [rn]
  | .pop rn => [rn]
  | .call rn => [rn]
  | .ret => []

/-- An instruction's length in bytes, `1 + ARITY` (R63). -/
def Instr.length (i : Instr) : Nat := 1 + arity i.mnemonic

/-- The dispatch table's lookup: the mnemonic whose opcode is this byte, if there is one (R69, R70). No bit field of the
byte is consulted (R73). -/
def mnemonicOf (code : Mnemonic → Byte) (op : Byte) : Option Mnemonic :=
  Mnemonic.all.find? fun m => code m == op

/-- Reads `b1` and builds an instruction of format F1R from it. -/
def decodeOneOperand {ε : Type} (rd : Nat → Except ε Byte) (build : Byte → Instr) : Except ε Instr :=
  match rd 1 with
  | .error e => .error e
  | .ok b1 => .ok (build b1)

/-- Reads `b1`, then `b2`, and builds an instruction of format F2RI or F2RR from them (R83: in increasing order). -/
def decodeTwoOperands {ε : Type} (rd : Nat → Except ε Byte) (build : Byte → Byte → Instr) : Except ε Instr :=
  match rd 1 with
  | .error e => .error e
  | .ok b1 =>
    match rd 2 with
    | .error e => .error e
    | .ok b2 => .ok (build b1 b2)

/-- The decoder over any source of bytes: `rd k` is the instruction's byte number `k`, or why it can't be read. It reads the
opcode, looks it up, and reads exactly the operand bytes of that opcode, `b1` before `b2` (R64, R83; the first lines of
R90's `step`). A byte that is no opcode is rejected through `unrecognized` (R82). -/
def decodeFrom {ε : Type} (code : Mnemonic → Byte) (unrecognized : Byte → ε) (rd : Nat → Except ε Byte) :
    Except ε Instr :=
  match rd 0 with
  | .error e => .error e
  | .ok op =>
    match mnemonicOf code op with
    | none => .error (unrecognized op)
    | some .hlt => .ok .hlt
    | some .ldi => decodeTwoOperands rd .ldi
    | some .prn => decodeOneOperand rd .prn
    | some .mul => decodeTwoOperands rd .mul
    | some .add => decodeTwoOperands rd .add
    | some .push => decodeOneOperand rd .push
    | some .pop => decodeOneOperand rd .pop
    | some .call => decodeOneOperand rd .call
    | some .ret => .ok .ret

/-- Why a list of bytes holds no instruction at its head. -/
inductive DecodeError where
  /-- The first byte is no opcode (R70). -/
  | unrecognizedOpcode (op : Byte)
  /-- The list ends before the instruction's byte number `k` (0 the opcode, 1 and 2 the operands). -/
  | missingByte (k : Nat)
deriving DecidableEq, Repr

/-- Byte number `k` of a list. -/
def byteOf (bytes : List Byte) (k : Nat) : Except DecodeError Byte :=
  match bytes[k]? with
  | some b => .ok b
  | none => .error (.missingByte k)

/-- Decodes the instruction at the head of a list of bytes and answers it with the bytes after it, under the opcode map
`code`. -/
def decodeWith (code : Mnemonic → Byte) (bytes : List Byte) : Except DecodeError (Instr × List Byte) :=
  match decodeFrom code .unrecognizedOpcode (byteOf bytes) with
  | .error e => .error e
  | .ok i => .ok (i, bytes.drop i.length)

/-- The decoder under the default opcode map (log 1). -/
def decode (bytes : List Byte) : Except DecodeError (Instr × List Byte) := decodeWith defaultOpcode bytes

/-- The bytes of an instruction under the opcode map `code`: the opcode, then the operands, at increasing addresses
(R63, R65). -/
def encodeWith (code : Mnemonic → Byte) (i : Instr) : List Byte := code i.mnemonic :: i.operands

/-- The encoder under the default opcode map (log 1). -/
def encode (i : Instr) : List Byte := encodeWith defaultOpcode i

/-- An instruction's bytes laid out at increasing addresses, from its bits as spec/opcode_table.json numbers them: the
first byte is bits 7..0, the second bits 15..8, the third bits 23..16. Bits from `nbits` up are 0. -/
def tableBytes (nbits w : Nat) : List Byte :=
  let v := w % 2 ^ nbits
  [BitVec.ofNat 8 v, BitVec.ofNat 8 (v / 256), BitVec.ofNat 8 (v / 65536)]

/-- The instruction the decoder reads from a table word (a name the host fixes). -/
def decodeTableWord (nbits w : Nat) : Option Instr :=
  match decode (tableBytes nbits w) with
  | .ok (i, _) => some i
  | .error _ => none

end Sys2Proof
end

