-- ==== Sys2Proof/Machine/Fetch.lean ====
section
/-! DEFINITION. Fetching an instruction's bytes from memory (spec/40_dispatch.md R81 to R83), and placing an instruction
where the next step fetches it. -/

namespace Sys2Proof.Machine

/-- Byte number `k` of the instruction at `PC`: `MemRead(PC + k, 1)`, with `PC + k` computed without wrap (R83). -/
def instrByte (s : State) (k : Nat) : Except ErrorReport Byte := memRead s.mem (s.pc.toNat + k)

/-- Fetch, decode and operand fetch (R81, R82, R83) under the opcode map `code`. It reads the opcode byte and then only
the operand bytes of that opcode, so its memory accesses are those of spec/20_memory.md R48. -/
def fetchInstr (code : Mnemonic → Byte) (s : State) : Except ErrorReport Instr :=
  decodeFrom code .unrecognizedOpcode (instrByte s)

/-- The bytes of memory from `PC` up to address 255, in address order. -/
def State.bytesFromPc (s : State) : List Byte :=
  (List.range (Config.memSize - s.pc.toNat)).map fun k => s.mem.get (s.pc.toNat + k)

/-- A memory with bytes placed from an address up. A byte that would lie past 255 is not placed, since that address does
not exist (log 12). -/
def Memory.place (m : Memory) : Nat → List Byte → Memory
  | _, [] => m
  | a, v :: vs => Memory.place (if a > Config.addrMax then m else m.set a v) (a + 1) vs

/-- A table word placed at `PC`, in a core that runs: what it takes for the very next step to fetch it (log 12). -/
def placeTableWord (s : State) (nbits w : Nat) : State :=
  { s with mem := s.mem.place s.pc.toNat (tableBytes nbits w), status := .running }

end Sys2Proof.Machine
end

