-- ==== Sys2Proof/Machine/Cycle.lean ====
section
/-! DEFINITION. One fetch-decode-execute cycle (spec/40_dispatch.md R90) and the run loop (R92). -/

namespace Sys2Proof.Machine

/-- One step of the core under the opcode map `code` (R90). A step happens only while Running; otherwise the machine stops
with a named fault (R80). DEDUCED: the spec says that no step happens there, and a fault is how a step function says so.
Safe (log 13). Every error the fetch or a handler raises is a next state (R132). -/
def stepWith (code : Mnemonic → Byte) (s : State) : StepResult :=
  match s.status with
  | .ready => .fault .waitingForRun
  | .halted => .fault .halted
  | .error e => .fault (.stoppedByError e)
  | .running =>
    match fetchInstr code s with
    | .error e => raise e s
    | .ok i => exec i s

/-- The run loop under fuel (R92; spec/70_reset_and_hazards.md R147): steps follow each other while the status is Running,
at most `fuel` of them, and the state reached is the answer. -/
def runLoop (code : Mnemonic → Byte) : Nat → State → State
  | 0, s => s
  | fuel + 1, s =>
    match stepWith code s with
    | .next t => runLoop code fuel t
    | .fault _ => s
    | .refused _ => s

/-- A sequence of instructions executed one after another, as far as each answers a next state. It fetches nothing: it is
how a claim speaks of "a sequence of pushes" (spec/44_stack.md R114). -/
def execAll : List Instr → State → StepResult
  | [], s => .next s
  | i :: is, s =>
    match exec i s with
    | .next t => execAll is t
    | .fault f => .fault f
    | .refused r => .refused r

end Sys2Proof.Machine
end

