-- ==== Sys2Proof/Machine/Step.lean ====
section
/-! DEFINITION. The step and the placing of an instruction, under the names the host fixes. -/

namespace Sys2Proof.Machine

/-- One step of the core, under the default opcode map (log 1). -/
def step (s : State) : Host.Outcome State Fault Refusal := stepWith defaultOpcode s

/-- `s` with the instruction of a table word where `step` fetches next, and Running (log 12). -/
def State.withFetchWord (s : State) (nbits w : Nat) : State := placeTableWord s nbits w

end Sys2Proof.Machine
end

