-- ==== Sys2Proof/Machine/Ports.lean ====
section
/-! DEFINITION. The core's interfaces to the outside, each a transaction and none a step (spec/10_state.md, section 7):
the load port, the `run` command, and the status and error report. UNVERIFIED: the ports are the spec's decisions D14 and
D20. Unsafe (log 12). The output port is the field `State.out` itself (R41). -/

namespace Sys2Proof.Machine

/-- The load port (R38): in Ready the host may write a byte; in any other status there is no effect. An address is a byte,
so it is in 0..255. -/
def State.loadPort (s : State) (a v : Byte) : State :=
  match s.status with
  | .ready => s.setMem (s.mem.set a.toNat v)
  | .running => s
  | .halted => s
  | .error _ => s

/-- The `run` command (R39, R144): Ready becomes Running; in any other status there is no effect. -/
def State.run (s : State) : State :=
  match s.status with
  | .ready => s.setStatus .running
  | .running => s
  | .halted => s
  | .error _ => s

/-- The bytes of an image written through the load port at increasing addresses from `a` (R142). -/
def State.loadFrom (s : State) : Nat → List Byte → State
  | _, [] => s
  | a, v :: vs => State.loadFrom (s.loadPort (BitVec.ofNat 8 a) v) (a + 1) vs

/-- A launch (spec/70_reset_and_hazards.md R143): construction, the image from address 0, then `run` once. An image of more
than 256 bytes can't be loaded: that is a LoadError outside the core, and the core is never started (R129). -/
def launch (image : List Byte) : Option State :=
  if image.length ≤ Config.memSize then some (State.reset.loadFrom 0 image).run else none

/-- The error kinds the core's status can hold (spec/60_exceptions.md R125). -/
inductive ErrorKind where
  | unrecognizedOpcode | outOfBounds | unsupportedOperation
deriving DecidableEq, Repr

/-- The kind of an error. -/
def ErrorReport.kind : ErrorReport → ErrorKind
  | .unrecognizedOpcode _ => .unrecognizedOpcode
  | .outOfBounds _ => .outOfBounds
  | .unsupportedOperation => .unsupportedOperation

/-- The numeric code of an error kind (R125). UNVERIFIED: the codes are the spec's decision D23. Unsafe (log 16). -/
def errorCode : ErrorKind → Nat
  | .unrecognizedOpcode => 1
  | .outOfBounds => 2
  | .unsupportedOperation => 3

/-- The error report (R40): in Error, the kind's code with the kind and info; in any other status nothing. -/
def State.report (s : State) : Option (Nat × ErrorReport) :=
  match s.status with
  | .ready => none
  | .running => none
  | .halted => none
  | .error e => some (errorCode e.kind, e)

end Sys2Proof.Machine
end

