-- ==== Sys2Proof/Safety.lean ====
section
/-! DEFINITION. The terms claims use: the invariant of the core's state, the states a launched core reaches, and what
counts as an ended and as a safe run (spec/10_state.md R29, R33; spec/70_reset_and_hazards.md R146). -/

namespace Sys2Proof.Machine

/-- An error status a step can leave (spec/60_exceptions.md R126): a recorded address is 256, a recorded register index is
above 7, overflow leaves `SP = 0` and underflow `SP = SP_INIT`, and UnsupportedOperation is never raised. -/
def State.errorIsLegal (s : State) : ErrorReport → Bool
  | .unrecognizedOpcode _ => true
  | .outOfBounds (.memAddr a) => a == 256
  | .outOfBounds (.regIndex b) => !isRegister b
  | .outOfBounds .stackOverflow => s.sp == 0
  | .outOfBounds .stackUnderflow => s.sp == spInit
  | .unsupportedOperation => false

/-- The status is one a core can be in (R33, R126). -/
def State.statusIsLegal (s : State) : Bool :=
  match s.status with
  | .ready => true
  | .running => true
  | .halted => true
  | .error e => s.errorIsLegal e

/-- The invariant of the core: memory in canonical form, `SP` in 0..`SP_INIT` (R29), a legal status. -/
def State.inv (s : State) : Bool := s.mem.wf && decide (s.sp.toNat ≤ spInit.toNat) && s.statusIsLegal

/-- The states a core launched with some image reaches, under the opcode map `code`. -/
inductive Reachable (code : Mnemonic → Byte) : State → Prop where
  | launched (image : List Byte) (s : State) (h : launch image = some s) : Reachable code s
  | stepped (s t : State) (hs : Reachable code s) (h : stepWith code s = .next t) : Reachable code t

/-- The run has ended (R146): no step is enabled any more. -/
def State.ended (s : State) : Bool :=
  match s.status with
  | .ready => false
  | .running => false
  | .halted => true
  | .error _ => true

/-- The state is in Error, the abnormal end (R146). -/
def State.inError (s : State) : Bool :=
  match s.status with
  | .ready => false
  | .running => false
  | .halted => false
  | .error _ => true

/-- The run from `s` is safe for `fuel` steps: it raises no error within them. -/
def safeFor (code : Mnemonic → Byte) (fuel : Nat) (s : State) : Bool := !(runLoop code fuel s).inError

end Sys2Proof.Machine

namespace Sys2Proof

/-- Instructions that end with the sequential advance (spec/40_dispatch.md R86): all but HLT, CALL and RET (R87). -/
def Instr.isSequential : Instr → Bool
  | .hlt => false
  | .ldi _ _ => true
  | .prn _ => true
  | .mul _ _ => true
  | .add _ _ => true
  | .push _ => true
  | .pop _ => true
  | .call _ => false
  | .ret => false

end Sys2Proof
end

