-- ==== Sys2Proof/Certificates/Slice0/Obligations.lean ====
section
/-! DEFINITION. The statements for the provers, from the numbered rules of spec/. Where a clause rests on a decision the spec
marks as its own (D<n> of spec/92_eei_decisions.md), the docstring says so and names the log entry. -/

open Sys2Proof Sys2Proof.Machine

/-! ## Construction and the ports -/

/-- R30: the reset value of `SP` is `SP_INIT` = 0xF3 (243). -/
def Obligations.ResetStackPointerIsF3 : Prop :=
  State.reset.sp = spInit ∧ spInit.toNat = 0xF3 ∧ spInit.toNat = 243

/-- The construction state of spec/70_reset_and_hazards.md section 1: every register and every byte 0, `PC` 0, `SP` 0xF3,
Ready, no output, nothing to report. `PC` = 0 is the spec's decision D2 (log 2). -/
def Obligations.ResetHoldsConstructionValues : Prop :=
  (∀ r : Fin 8, State.reset.readReg r = 0) ∧ (∀ a, State.reset.mem.get a = 0) ∧ State.reset.pc = 0 ∧
  State.reset.sp.toNat = 0xF3 ∧ State.reset.status = .ready ∧ State.reset.out = [] ∧ State.reset.report = none

/-- The load port (spec/10_state.md section 7): in Ready it writes one byte and changes nothing else, in any other status it
has no effect. The port and its silence outside Ready are the spec's decisions D14 and D20 (log 12). -/
def Obligations.LoadPortWritesOnlyInReady : Prop :=
  ∀ (s : State) (a v : Byte),
    (s.status = .ready →
      (∀ b, (s.loadPort a v).mem.get b = if b = a.toNat then v else s.mem.get b) ∧
      (s.loadPort a v).regs = s.regs ∧ (s.loadPort a v).pc = s.pc ∧ (s.loadPort a v).sp = s.sp ∧
      (s.loadPort a v).status = .ready ∧ (s.loadPort a v).out = s.out) ∧
    (s.status ≠ .ready → s.loadPort a v = s)

/-- The `run` command (spec/10_state.md section 7): Ready becomes Running and nothing else changes; in any other status it has
no effect, the spec's decision D20 (log 12). -/
def Obligations.RunCommandLeavesOnlyReady : Prop :=
  ∀ s : State, (s.status = .ready → s.run = { s with status := .running }) ∧ (s.status ≠ .ready → s.run = s)

/-- A launch (spec/70_reset_and_hazards.md section 1): an image of at most 256 bytes stands at address 0, every other byte is
0, and the core is Running with every other field as constructed. A longer image starts no core. The launch premises are
the spec's decisions D2 and D16 (log 2, log 12). -/
def Obligations.LaunchPlacesImageAndStarts : Prop :=
  ∀ image : List Byte,
    (image.length ≤ 256 → ∃ s, launch image = some s ∧ s.status = .running ∧ s.pc = 0 ∧ s.sp = spInit ∧ s.out = [] ∧
      (∀ r : Fin 8, s.readReg r = 0) ∧ ∀ a, s.mem.get a = image.getD a 0) ∧
    (256 < image.length → launch image = none)

/-! ## The ALU -/

/-- R104, R105: the sum and the product of the unsigned values modulo 256. -/
def Obligations.AluSumAndProductAreModulo256 : Prop :=
  ∀ a b : Byte, (aluApply .add a b).toNat = (a.toNat + b.toNat) % 256 ∧
    (aluApply .mul a b).toNat = (a.toNat * b.toNat) % 256

/-- The arithmetic laws the spec derives for the ALU (spec/43_alu.md section 2): both operations commute and associate, and
multiplication distributes over addition. -/
def Obligations.AluCommutesAssociatesDistributes : Prop :=
  ∀ a b c : Byte, (∀ op, aluApply op a b = aluApply op b a) ∧
    (∀ op, aluApply op (aluApply op a b) c = aluApply op a (aluApply op b c)) ∧
    aluApply .mul a (aluApply .add b c) = aluApply .add (aluApply .mul a b) (aluApply .mul a c)

/-! ## Memory -/

/-- R46, R47: a read or write past 255 raises with the address; within 0..255 a read returns the byte, and a write makes the
byte read as written and leaves every other byte. -/
def Obligations.MemoryAccessChecksItsAddress : Prop :=
  ∀ (m : Memory) (a : Nat) (v : Byte),
    (255 < a → memRead m a = .error (.outOfBounds (.memAddr a)) ∧ memWrite m a v = .error (.outOfBounds (.memAddr a))) ∧
    (a ≤ 255 → memRead m a = .ok (m.get a) ∧
      ∃ m', memWrite m a v = .ok m' ∧ memRead m' a = .ok v ∧ ∀ b, b ≠ a → memRead m' b = memRead m b)

/-! ## What each instruction does when it completes -/

/-- LDI (spec/42_load_immediate.md): the register holds the immediate, `PC` moves on by 3, and nothing else changes. -/
def Obligations.LdiLoadsItsImmediate : Prop :=
  ∀ (s : State) (b v : Byte) (n : Fin 8), b.toNat = n.val → s.pc.toNat + 3 ≤ 255 →
    ∃ t, exec (.ldi b v) s = .next t ∧ t.readReg n = v ∧ (∀ r : Fin 8, r ≠ n → t.readReg r = s.readReg r) ∧
      t.pc.toNat = s.pc.toNat + 3 ∧ t.sp = s.sp ∧ t.mem = s.mem ∧ t.status = s.status ∧ t.out = s.out

/-- MUL (spec/43_alu.md): the first register holds the product of the two register values modulo 256, both read before the
write, also when the two are the same register; `PC` moves on by 3, and nothing else changes. -/
def Obligations.MulMultipliesRegisters : Prop :=
  ∀ (s : State) (b1 b2 : Byte) (a b : Fin 8), b1.toNat = a.val → b2.toNat = b.val → s.pc.toNat + 3 ≤ 255 →
    ∃ t, exec (.mul b1 b2) s = .next t ∧
      (t.readReg a).toNat = ((s.readReg a).toNat * (s.readReg b).toNat) % 256 ∧
      (∀ r : Fin 8, r ≠ a → t.readReg r = s.readReg r) ∧
      t.pc.toNat = s.pc.toNat + 3 ∧ t.sp = s.sp ∧ t.mem = s.mem ∧ t.status = s.status ∧ t.out = s.out

/-- ADD (spec/43_alu.md): as MUL, with the sum modulo 256. -/
def Obligations.AddAddsRegisters : Prop :=
  ∀ (s : State) (b1 b2 : Byte) (a b : Fin 8), b1.toNat = a.val → b2.toNat = b.val → s.pc.toNat + 3 ≤ 255 →
    ∃ t, exec (.add b1 b2) s = .next t ∧
      (t.readReg a).toNat = ((s.readReg a).toNat + (s.readReg b).toNat) % 256 ∧
      (∀ r : Fin 8, r ≠ a → t.readReg r = s.readReg r) ∧
      t.pc.toNat = s.pc.toNat + 3 ∧ t.sp = s.sp ∧ t.mem = s.mem ∧ t.status = s.status ∧ t.out = s.out

/-- PRN (spec/41_system.md): the register's value is appended to the output, `PC` moves on by 2, and nothing else changes. -/
def Obligations.PrnEmitsItsRegister : Prop :=
  ∀ (s : State) (b : Byte) (n : Fin 8), b.toNat = n.val → s.pc.toNat + 2 ≤ 255 →
    ∃ t, exec (.prn b) s = .next t ∧ t.out = s.out ++ [s.readReg n] ∧ t.pc.toNat = s.pc.toNat + 2 ∧
      t.regs = s.regs ∧ t.sp = s.sp ∧ t.mem = s.mem ∧ t.status = s.status

/-- HLT (spec/41_system.md): the status becomes Halted and nothing else changes, at every `PC`. That `PC` stays is the spec's
decision D7 (log 6). -/
def Obligations.HltHaltsAndChangesNothingElse : Prop :=
  ∀ s : State, ∃ t, exec .hlt s = .next t ∧ t.status = .halted ∧ t.regs = s.regs ∧ t.pc = s.pc ∧ t.sp = s.sp ∧
    t.mem = s.mem ∧ t.out = s.out

/-- PUSH (spec/44_stack.md): `SP` moves down by one, the byte there holds the register's value and every other byte reads as
before, `PC` moves on by 2, and nothing else changes. No check keeps the stack from the program, the spec's decision D12
(log 10). -/
def Obligations.PushStoresItsRegister : Prop :=
  ∀ (s : State) (b : Byte) (n : Fin 8), b.toNat = n.val → s.sp ≠ 0 → s.pc.toNat + 2 ≤ 255 →
    ∃ slot t, pushSlot s = .ok slot ∧ slot.toNat + 1 = s.sp.toNat ∧ exec (.push b) s = .next t ∧ t.sp = slot ∧
      t.mem.get slot.toNat = s.readReg n ∧ (∀ a, a ≠ slot.toNat → t.mem.get a = s.mem.get a) ∧
      t.pc.toNat = s.pc.toNat + 2 ∧ t.regs = s.regs ∧ t.status = s.status ∧ t.out = s.out

/-- POP (spec/44_stack.md): the register holds the byte at `SP`, `SP` moves up by one, `PC` moves on by 2, and nothing else
changes: the byte stays in memory. -/
def Obligations.PopLoadsTheTop : Prop :=
  ∀ (s : State) (b : Byte) (n : Fin 8), b.toNat = n.val → s.sp.toNat < spInit.toNat → s.pc.toNat + 2 ≤ 255 →
    ∃ t, exec (.pop b) s = .next t ∧ t.readReg n = s.mem.get s.sp.toNat ∧
      (∀ r : Fin 8, r ≠ n → t.readReg r = s.readReg r) ∧ t.sp.toNat = s.sp.toNat + 1 ∧
      t.pc.toNat = s.pc.toNat + 2 ∧ t.mem = s.mem ∧ t.status = s.status ∧ t.out = s.out

/-- CALL (spec/45_subroutine.md): `SP` moves down by one, the byte there holds `PC + 2` and every other byte reads as before,
`PC` becomes the register's value, whatever it is, and nothing else changes. -/
def Obligations.CallPushesReturnAddressAndJumps : Prop :=
  ∀ (s : State) (b : Byte) (n : Fin 8), b.toNat = n.val → s.sp ≠ 0 → s.pc.toNat + 2 ≤ 255 →
    ∃ slot t, pushSlot s = .ok slot ∧ slot.toNat + 1 = s.sp.toNat ∧ exec (.call b) s = .next t ∧ t.sp = slot ∧
      (t.mem.get slot.toNat).toNat = s.pc.toNat + 2 ∧ (∀ a, a ≠ slot.toNat → t.mem.get a = s.mem.get a) ∧
      t.pc = s.readReg n ∧ t.regs = s.regs ∧ t.status = s.status ∧ t.out = s.out

/-- RET (spec/45_subroutine.md): `PC` becomes the byte at `SP`, whoever put it there, `SP` moves up by one, and nothing else
changes, at every `PC`. -/
def Obligations.RetJumpsToTheTop : Prop :=
  ∀ s : State, s.sp.toNat < spInit.toNat →
    ∃ t, exec .ret s = .next t ∧ t.pc = s.mem.get s.sp.toNat ∧ t.sp.toNat = s.sp.toNat + 1 ∧ t.regs = s.regs ∧
      t.mem = s.mem ∧ t.status = s.status ∧ t.out = s.out

/-! ## Where a form raises -/

/-- A register operand above 7 raises RegIndex of it and changes nothing else; of two, the first such operand is the one
recorded. That it raises is the spec's decision D17, the order its decision D9 (log 8, log 9). -/
def Obligations.InvalidRegisterOperandRaises : Prop :=
  ∀ (i : Instr) (s : State) (b : Byte), i.registerOperands.find? (fun c => decide (7 < c.toNat)) = some b →
    exec i s = .next { s with status := .error (.outOfBounds (.regIndex b)) }

/-- PUSH and CALL with `SP = 0` raise StackOverflow and change nothing else: the spec's decision D6 (log 5). For CALL this
holds at every `PC`, since the stack bound is checked before the return address (D9, log 8). -/
def Obligations.FullStackRaisesOverflow : Prop :=
  ∀ (s : State) (b : Byte), b.toNat ≤ 7 → s.sp = 0 →
    exec (.push b) s = .next { s with status := .error (.outOfBounds .stackOverflow) } ∧
    exec (.call b) s = .next { s with status := .error (.outOfBounds .stackOverflow) }

/-- POP and RET with `SP` at `SP_INIT` (or above it, where no run comes) raise StackUnderflow and change nothing else: the
spec's decision D5 (log 5). -/
def Obligations.EmptyStackRaisesUnderflow : Prop :=
  ∀ (s : State) (b : Byte), b.toNat ≤ 7 → spInit.toNat ≤ s.sp.toNat →
    exec (.pop b) s = .next { s with status := .error (.outOfBounds .stackUnderflow) } ∧
    exec .ret s = .next { s with status := .error (.outOfBounds .stackUnderflow) }

/-- CALL whose return address is past 255 raises MemAddr of it and changes nothing else: the spec's decision D4 (log 4). -/
def Obligations.CallReturnAddressPastTopRaises : Prop :=
  ∀ (s : State) (b : Byte), b.toNat ≤ 7 → s.sp ≠ 0 → 255 < s.pc.toNat + 2 →
    exec (.call b) s = .next { s with status := .error (.outOfBounds (.memAddr (s.pc.toNat + 2))) }

/-- A sequential instruction whose advance would pass 255 keeps its effects and raises: registers, memory, `SP` and output
are what the same instruction leaves when run at address 0, where it completes; `PC` keeps the instruction's address and the
status is Error with the address. The spec's decision D3 (log 3). -/
def Obligations.AdvancePastTopKeepsEffectsAndRaises : Prop :=
  ∀ (i : Instr) (s : State), i.isSequential = true → i.wellFormed = true →
    (∀ b, i = .push b → s.sp ≠ 0) → (∀ b, i = .pop b → s.sp.toNat < spInit.toNat) →
    255 < s.pc.toNat + (1 + arity i.mnemonic) →
    ∃ t u, exec i s = .next t ∧ exec i { s with pc := 0 } = .next u ∧ u.status = s.status ∧
      t.status = .error (.outOfBounds (.memAddr (s.pc.toNat + (1 + arity i.mnemonic)))) ∧ t.pc = s.pc ∧
      t.regs = u.regs ∧ t.sp = u.sp ∧ t.mem = u.mem ∧ t.out = u.out

/-! ## Fetch, decode and the step -/

/-- When the bytes from `PC` up decode to an instruction, the step of a Running core is that instruction's execution, under
every opcode map; `step` is the step under the default map (log 1). Nothing is added around the execution. -/
def Obligations.StepRunsTheDecodedInstruction : Prop :=
  ∀ (s : State) (i : Instr) (rest : List Byte), s.status = .running →
    (∀ code, decodeWith code s.bytesFromPc = .ok (i, rest) → stepWith code s = exec i s) ∧
    (decode s.bytesFromPc = .ok (i, rest) → step s = exec i s)

/-- R81, R82: the opcode read never raises; a byte that is none of the nine opcodes ends the run with that byte reported and
nothing else changed; an opcode selects its mnemonic. -/
def Obligations.UnrecognizedOpcodeEndsTheRun : Prop :=
  ∀ (code : Mnemonic → Byte) (s : State), Function.Injective code → s.status = .running →
    ∃ op, instrByte s 0 = .ok op ∧ op = s.mem.get s.pc.toNat ∧
      ((∀ m, code m ≠ op) → stepWith code s = .next { s with status := .error (.unrecognizedOpcode op) }) ∧
      (∀ m, code m = op → mnemonicOf code op = some m)

/-- R83: the operand bytes are read at `PC + 1` up, without wrap; the first one past 255 raises MemAddr of its address with
nothing else changed; when all are in memory, they are the instruction's operands in order. -/
def Obligations.OperandsAreReadInOrderAndChecked : Prop :=
  ∀ (code : Mnemonic → Byte) (s : State) (m : Mnemonic), Function.Injective code → s.status = .running →
    code m = s.mem.get s.pc.toNat →
    (∀ k, 1 ≤ k → k ≤ arity m → 255 < s.pc.toNat + k → (∀ j, j < k → s.pc.toNat + j ≤ 255) →
      stepWith code s = .next { s with status := .error (.outOfBounds (.memAddr (s.pc.toNat + k))) }) ∧
    (s.pc.toNat + arity m ≤ 255 → ∃ i : Instr, fetchInstr code s = .ok i ∧ i.mnemonic = m ∧
      i.operands.length = arity m ∧
      ∀ k (hk : k < i.operands.length), i.operands[k] = s.mem.get (s.pc.toNat + (k + 1)))

/-- R80: a step happens exactly while the status is Running: there a step always answers a next state, and in Ready, Halted
and Error it never does. -/
def Obligations.StepsHappenOnlyWhileRunning : Prop :=
  ∀ (code : Mnemonic → Byte) (s : State), (∃ t, stepWith code s = .next t) ↔ s.status = .running

/-- Outside Running the machine stops with the fault that names the status. That it stops so is the model's choice (log 13);
the spec says that no step happens (spec/40_dispatch.md). -/
def Obligations.FaultNamesWhyNoStepHappens : Prop :=
  ∀ (code : Mnemonic → Byte) (s : State), (s.status = .ready → stepWith code s = .fault .waitingForRun) ∧
    (s.status = .halted → stepWith code s = .fault .halted) ∧
    (∀ e, s.status = .error e → stepWith code s = .fault (.stoppedByError e))

/-! ## Whole-machine rules -/

/-- Every step keeps the invariant, under every opcode map: memory in canonical form, which is the model's representation and
its own choice (log 18); `SP` in 0..`SP_INIT`, which rests on the spec's decisions D5 and D6 (log 5); a legal status, which
rests on its decisions D3, D4, D5, D6, D8, D9, D17 and D18 (log 3, 4, 5, 7, 8, 9, 16). -/
def Obligations.EveryStepKeepsTheInvariant : Prop :=
  ∀ (code : Mnemonic → Byte) (s t : State), s.inv = true → stepWith code s = .next t → t.inv = true

/-- The invariant holds at construction, and a load and `run` keep it. Its canonical-memory clause is the model's own choice
of representation (log 18); the ports rest on the spec's decisions D14 and D20 (log 12), `PC` and `SP` at construction on D2
and D21 (log 2, log 14). -/
def Obligations.ConstructionAndPortsMeetTheInvariant : Prop :=
  State.reset.inv = true ∧
  ∀ (s : State) (a v : Byte), s.inv = true → (s.loadPort a v).inv = true ∧ s.run.inv = true

/-- Every state a launched core reaches, with any image and under any opcode map, meets the invariant and is past Ready. The
invariant's canonical-memory clause is the model's own choice of representation (log 18), its other clauses rest on the
spec's decisions named at EveryStepKeepsTheInvariant (log 3, 4, 5, 7, 8, 9, 16), and a launch on its decisions D2, D14, D16
and D20 (log 2, log 12). -/
def Obligations.ReachableStatesMeetTheInvariant : Prop :=
  ∀ (code : Mnemonic → Byte) (s : State), Reachable code s → s.inv = true ∧ s.status ≠ .ready

/-- The status transitions of spec/10_state.md section 4. Reset is Ready; `run` takes Ready to Running; a step starts in Running
and ends in Running, Halted or Error; it ends in Halted exactly when it ran HLT, and in Error only by a raise: of the fetch,
of the handler with none of its effects (the spec's decision D8, log 7), or of a sequential instruction's advance from the
instruction's own `PC`, after its effects (its decision D3, log 3). Halted and Error are never left, by a step or a port (the
ports' silence there is its decision D20, log 12). -/
def Obligations.StatusTransitions : Prop :=
  State.reset.status = .ready ∧
  (∀ s : State, s.status = .ready → s.run.status = .running) ∧
  (∀ (code : Mnemonic → Byte) (s t : State), stepWith code s = .next t →
    s.status = .running ∧ t.status ≠ .ready ∧ (t.status = .halted ↔ fetchInstr code s = .ok .hlt) ∧
    (∀ e, t.status = .error e → fetchInstr code s = .error e ∨
      ∃ i : Instr, fetchInstr code s = .ok i ∧ (exec i s = raise e s ∨
        (i.isSequential = true ∧ ∃ u : State, u.pc = s.pc ∧ u.status = .running ∧
          exec i s = advance (1 + arity i.mnemonic) u ∧ advance (1 + arity i.mnemonic) u = raise e u)))) ∧
  (∀ (code : Mnemonic → Byte) (s : State) (a v : Byte), s.ended = true →
    (∀ t, stepWith code s ≠ .next t) ∧ (s.loadPort a v).status = s.status ∧ s.run.status = s.status)

/-- R34: the output is empty at reset; a step appends to it only when it runs PRN, and then the one value of its register;
nothing removes from it, a step or a port. -/
def Obligations.OutputGrowsOnlyByPrn : Prop :=
  State.reset.out = [] ∧
  (∀ (code : Mnemonic → Byte) (s t : State), stepWith code s = .next t →
    t.out = s.out ∨ ∃ (b : Byte) (n : Fin 8), fetchInstr code s = .ok (.prn b) ∧ b.toNat = n.val ∧
      t.out = s.out ++ [s.readReg n]) ∧
  (∀ (s : State) (a v : Byte), (s.loadPort a v).out = s.out ∧ s.run.out = s.out)

/-- Errors are precise: a step that ends in Error changed the status alone, or it ran a sequential instruction that ends at
address 255: then `PC` is kept, and the effects stand, since registers, memory, `SP` and output are what the same instruction
leaves when run at address 0, where it completes. The spec's decisions D8 and D3 (log 7, log 3). -/
def Obligations.ErrorsArePrecise : Prop :=
  ∀ (code : Mnemonic → Byte) (s t : State) (e : ErrorReport), stepWith code s = .next t → t.status = .error e →
    t = { s with status := .error e } ∨
    (e = .outOfBounds (.memAddr 256) ∧ t.pc = s.pc ∧
      ∃ i : Instr, fetchInstr code s = .ok i ∧ i.isSequential = true ∧ i.wellFormed = true ∧
        s.pc.toNat + i.length = 256 ∧
        ∃ u, exec i { s with pc := 0 } = .next u ∧ u.status = .running ∧
          t.regs = u.regs ∧ t.mem = u.mem ∧ t.sp = u.sp ∧ t.out = u.out)

/-- Every error a step raises has one of the causes of spec/60_exceptions.md section 1: an unrecognized byte at `PC`; an
operand byte, CALL's return address or an advance at address 256, which is always the address recorded; a register operand
above 7; a full stack; an empty one. UnsupportedOperation is never raised. The bounds rest on the spec's decisions D3 to D6, D17 and D18 (log 3, 4, 5, 9,
16). -/
def Obligations.EveryErrorHasItsCause : Prop :=
  ∀ (code : Mnemonic → Byte) (s t : State) (e : ErrorReport), stepWith code s = .next t → t.status = .error e →
    (e = .unrecognizedOpcode (s.mem.get s.pc.toNat) ∧ ∀ m, code m ≠ s.mem.get s.pc.toNat) ∨
    (e = .outOfBounds (.memAddr 256) ∧
      ((∃ m k, mnemonicOf code (s.mem.get s.pc.toNat) = some m ∧ 1 ≤ k ∧ k ≤ arity m ∧ s.pc.toNat + k = 256) ∨
       (∃ b, fetchInstr code s = .ok (.call b) ∧ s.pc.toNat = 254) ∨
       (∃ i : Instr, fetchInstr code s = .ok i ∧ i.isSequential = true ∧ s.pc.toNat + (1 + arity i.mnemonic) = 256))) ∨
    (∃ i b, fetchInstr code s = .ok i ∧ b ∈ i.registerOperands ∧ 7 < b.toNat ∧ e = .outOfBounds (.regIndex b)) ∨
    (∃ b, (fetchInstr code s = .ok (.push b) ∨ fetchInstr code s = .ok (.call b)) ∧ s.sp = 0 ∧
      e = .outOfBounds .stackOverflow) ∨
    ((fetchInstr code s = .ok .ret ∨ ∃ b, fetchInstr code s = .ok (.pop b)) ∧ spInit.toNat ≤ s.sp.toNat ∧
      e = .outOfBounds .stackUnderflow)

/-- The error report (spec/10_state.md section 7): in Error the kind's code with the kind and info, code 1 with the byte for
UnrecognizedOpcode, code 2 with what is out of bounds for OutOfBounds, code 3 for UnsupportedOperation; no report exactly
outside Error. After a step that ends in Error the report is there, with code 1 and the byte at `PC` or with code 2, never
with code 3. The codes are the spec's decision D23, and that UnsupportedOperation is not raised its decision D18 (log 16); the
port is its decision D14 (log 12). -/
def Obligations.ReportCarriesCodeAndInfo : Prop :=
  (∀ s : State,
    (∀ op, s.status = .error (.unrecognizedOpcode op) → s.report = some (1, .unrecognizedOpcode op)) ∧
    (∀ info, s.status = .error (.outOfBounds info) → s.report = some (2, .outOfBounds info)) ∧
    (s.status = .error .unsupportedOperation → s.report = some (3, .unsupportedOperation)) ∧
    (s.report = none ↔ ∀ e, s.status ≠ .error e)) ∧
  ∀ (code : Mnemonic → Byte) (s t : State) (e : ErrorReport), stepWith code s = .next t → t.status = .error e →
    (e = .unrecognizedOpcode (s.mem.get s.pc.toNat) ∧
      t.report = some (1, .unrecognizedOpcode (s.mem.get s.pc.toNat))) ∨
    ∃ info, e = .outOfBounds info ∧ t.report = some (2, .outOfBounds info)

/-- No step writes a byte at `SP_INIT` or above, from any state whose `SP` is in 0..`SP_INIT` (the invariant); see
spec/20_memory.md section 2, the spec's decision D22 (log 10). -/
def Obligations.BytesFromSpInitUpAreNeverWritten : Prop :=
  ∀ (code : Mnemonic → Byte) (s t : State), s.inv = true → stepWith code s = .next t →
    ∀ a, spInit.toNat ≤ a → t.mem.get a = s.mem.get a

/-- `SP` is written by PUSH, CALL, POP and RET alone, and moves by exactly one, without wrap (spec/10_state.md section 3;
the bounds are the spec's decisions D5 and D6, log 5). -/
def Obligations.StackPointerMovesByOne : Prop :=
  ∀ (code : Mnemonic → Byte) (s t : State), stepWith code s = .next t →
    t.sp = s.sp ∨
    (t.sp.toNat + 1 = s.sp.toNat ∧ ∃ b, fetchInstr code s = .ok (.push b) ∨ fetchInstr code s = .ok (.call b)) ∨
    (t.sp.toNat = s.sp.toNat + 1 ∧ s.sp.toNat < spInit.toNat ∧
      (fetchInstr code s = .ok .ret ∨ ∃ b, fetchInstr code s = .ok (.pop b)))

/-- `PC` after a step: unchanged when the step ends in Error or Halted; otherwise on by `1 + ARITY` without wrap for a
sequential instruction, the register's value for CALL, the byte at the top of the stack for RET. That `PC` stays on an error
and on HLT rests on the spec's decisions D7, D8 and D3 (log 6, 7, 3). -/
def Obligations.ProgramCounterAfterAStep : Prop :=
  ∀ (code : Mnemonic → Byte) (s t : State), stepWith code s = .next t →
    (t.status ≠ .running → t.pc = s.pc) ∧
    (t.status = .running → ∃ i : Instr, fetchInstr code s = .ok i ∧
      (i.isSequential = true → t.pc.toNat = s.pc.toNat + (1 + arity i.mnemonic)) ∧
      (∀ b (n : Fin 8), i = .call b → b.toNat = n.val → t.pc = s.readReg n) ∧
      (i = .ret → t.pc = s.mem.get s.sp.toNat))

/-- The register table of spec/10_state.md section 1: no instruction reads or writes a register it does not name: putting any value into such a register before the
instruction is the same as putting it there after. LDI and POP do not read the register they write; PRN, PUSH and CALL do not
write the one they read; MUL and ADD do not write their second operand's. -/
def Obligations.RegistersReadAndWrittenAreThoseNamed : Prop :=
  (∀ (i : Instr) (s t : State) (r : Fin 8) (v : Byte), (∀ b ∈ i.registerOperands, b.toNat ≠ r.val) →
    exec i s = .next t → exec i (s.setReg r v) = .next (t.setReg r v)) ∧
  (∀ (s : State) (b v w : Byte) (n : Fin 8), b.toNat = n.val → exec (.ldi b v) (s.setReg n w) = exec (.ldi b v) s) ∧
  (∀ (s : State) (b w : Byte) (n : Fin 8), b.toNat = n.val → s.sp.toNat < spInit.toNat →
    exec (.pop b) (s.setReg n w) = exec (.pop b) s) ∧
  (∀ (s t : State) (b : Byte), exec (.prn b) s = .next t ∨ exec (.push b) s = .next t ∨ exec (.call b) s = .next t ∨
    exec .hlt s = .next t ∨ exec .ret s = .next t → t.regs = s.regs) ∧
  (∀ (s t : State) (b1 b2 : Byte) (r : Fin 8), exec (.mul b1 b2) s = .next t ∨ exec (.add b1 b2) s = .next t →
    b1.toNat ≠ r.val → t.readReg r = s.readReg r)

/-- The access table of spec/20_memory.md section 1: the memory accesses of a step that runs an instruction. It reads its own bytes, and the byte at `SP` for POP and
RET, and nothing else: over two memories that agree there, everything but memory ends the same. It writes the byte at
`SP - 1` for PUSH and CALL, and nothing else. -/
def Obligations.MemoryAccessesAreThoseOfTheTable : Prop :=
  ∀ (code : Mnemonic → Byte) (s : State) (m' : Memory) (i : Instr), s.status = .running → fetchInstr code s = .ok i →
    (∀ k, k < 1 + arity i.mnemonic → m'.get (s.pc.toNat + k) = s.mem.get (s.pc.toNat + k)) →
    ((i = .ret ∨ ∃ b, i = .pop b) → m'.get s.sp.toNat = s.mem.get s.sp.toNat) →
    ∃ t t', stepWith code s = .next t ∧ stepWith code { s with mem := m' } = .next t' ∧
      t'.regs = t.regs ∧ t'.pc = t.pc ∧ t'.sp = t.sp ∧ t'.status = t.status ∧ t'.out = t.out ∧
      ∀ a, (t.mem.get a = s.mem.get a ∧ t'.mem.get a = m'.get a) ∨
        (a + 1 = s.sp.toNat ∧ (∃ b, i = .push b ∨ i = .call b) ∧ t'.mem.get a = t.mem.get a)

/-! ## Frames: what an instruction leaves, whenever it answers a next state -/

/-- LDI, MUL, ADD: every byte of memory, `SP`, the output and every register but the destination are unchanged; the status
changes by an OutOfBounds error alone. -/
def Obligations.FrameOfRegisterWrites : Prop :=
  ∀ (s t : State) (b v : Byte),
    (exec (.ldi b v) s = .next t ∨ exec (.mul b v) s = .next t ∨ exec (.add b v) s = .next t) →
    (∀ a, t.mem.get a = s.mem.get a) ∧ t.sp = s.sp ∧ t.out = s.out ∧
    (∀ r : Fin 8, r.val ≠ b.toNat → t.readReg r = s.readReg r) ∧
    (t.status = s.status ∨ ∃ info, t.status = .error (.outOfBounds info))

/-- HLT and PRN: every byte of memory, every register and `SP` are unchanged. HLT also leaves `PC` and the output and writes
the status; that `PC` stays is the spec's decision D7 (log 6). PRN appends at most one byte to the output, and the status
changes by an OutOfBounds error alone, raised as the spec's decisions D3, D8 and D17 say (log 3, 7, 9). -/
def Obligations.FrameOfHaltAndPrint : Prop :=
  ∀ (s t : State) (b : Byte),
    (exec .hlt s = .next t ∨ exec (.prn b) s = .next t → (∀ a, t.mem.get a = s.mem.get a) ∧ t.regs = s.regs ∧
      t.sp = s.sp) ∧
    (exec .hlt s = .next t → t.pc = s.pc ∧ t.out = s.out ∧ t.status = .halted) ∧
    (exec (.prn b) s = .next t → (t.out = s.out ∨ ∃ v, t.out = s.out ++ [v]) ∧
      (t.status = s.status ∨ ∃ info, t.status = .error (.outOfBounds info)))

/-- POP and RET: every byte of memory and the output are unchanged, and so is every register but POP's destination; `SP` is
updated by both, and RET writes no register; the status changes by an OutOfBounds error alone. -/
def Obligations.FrameOfStackLoads : Prop :=
  ∀ (s t : State) (b : Byte),
    (exec (.pop b) s = .next t ∨ exec .ret s = .next t) →
    (∀ a, t.mem.get a = s.mem.get a) ∧ t.out = s.out ∧
    (∀ r : Fin 8, exec .ret s = .next t ∨ r.val ≠ b.toNat → t.readReg r = s.readReg r) ∧
    (t.sp = s.sp ∨ t.sp.toNat = s.sp.toNat + 1) ∧
    (t.status = s.status ∨ ∃ info, t.status = .error (.outOfBounds info))

/-- PUSH and CALL: every byte outside the slot `pushSlot` computes reads as before, and every byte does when there is no
slot; every register and the output are unchanged; `SP` is updated to the slot or unchanged; the status changes by an
OutOfBounds error alone. -/
def Obligations.FrameOfStackStores : Prop :=
  ∀ (s t : State) (b : Byte),
    (exec (.push b) s = .next t ∨ exec (.call b) s = .next t) →
    (∀ slot, pushSlot s = .ok slot → (∀ a, a ≠ slot.toNat → t.mem.get a = s.mem.get a) ∧ (t.sp = slot ∨ t.sp = s.sp)) ∧
    (∀ e, pushSlot s = .error e → (∀ a, t.mem.get a = s.mem.get a) ∧ t.sp = s.sp) ∧
    t.regs = s.regs ∧ t.out = s.out ∧
    (t.status = s.status ∨ ∃ info, t.status = .error (.outOfBounds info))

/-! ## Stack and subroutine laws -/

/-- The round trip the spec derives (spec/44_stack.md): PUSH then POP of the same register restores the register and `SP`,
and leaves the value in the byte below the old `SP`. -/
def Obligations.PushThenPopRestores : Prop :=
  ∀ (s : State) (b : Byte) (n : Fin 8), b.toNat = n.val → s.sp ≠ 0 → s.sp.toNat ≤ spInit.toNat → s.pc.toNat + 4 ≤ 255 →
    ∃ t, execAll [.push b, .pop b] s = .next t ∧ t.regs = s.regs ∧ t.sp = s.sp ∧
      t.mem.get (s.sp.toNat - 1) = s.readReg n ∧ t.pc.toNat = s.pc.toNat + 4 ∧ t.status = s.status

/-- The subroutine law the spec derives (spec/45_subroutine.md): after a CALL at `p`, whatever the subroutine did, a RET with
`SP` one below the CALL's and the return byte unchanged resumes at `p + 2` with `SP` restored. -/
def Obligations.RetResumesAfterTheCall : Prop :=
  ∀ (s : State) (b : Byte), b.toNat ≤ 7 → s.pc.toNat ≤ 253 → s.sp ≠ 0 → s.sp.toNat ≤ spInit.toNat →
    ∃ t, exec (.call b) s = .next t ∧
      ∀ u : State, u.sp.toNat + 1 = s.sp.toNat → u.mem.get (s.sp.toNat - 1) = t.mem.get (s.sp.toNat - 1) →
        ∃ w, exec .ret u = .next w ∧ w.pc.toNat = s.pc.toNat + 2 ∧ w.sp = s.sp

/-- Last in, first out, as the spec derives it (spec/44_stack.md): after a sequence of pushes, the pop number `k + 1` yields
the value pushed `k + 1` from the end, and `SP` comes back by as many as were popped, to its old value after all of them. -/
def Obligations.StackIsLastInFirstOut : Prop :=
  ∀ (s : State) (ns : List (Fin 8)) (d : Byte) (e : Fin 8), d.toNat = e.val →
    ns.length ≤ s.sp.toNat → s.sp.toNat ≤ spInit.toNat → s.pc.toNat + 4 * ns.length ≤ 255 →
    ∃ t, execAll (ns.map fun n => .push (BitVec.ofNat 8 n.val)) s = .next t ∧ t.sp.toNat + ns.length = s.sp.toNat ∧
      ∀ k (hk : k < ns.length), ∃ u, execAll (List.replicate (k + 1) (.pop d)) t = .next u ∧
        u.readReg e = s.readReg (ns[ns.length - 1 - k]) ∧ u.sp.toNat + ns.length = s.sp.toNat + (k + 1) ∧
        u.status = s.status

/-- A fetch sees the byte the instruction before it wrote, by PUSH or by CALL: when that byte's address is among the next
instruction's bytes, the byte fetched there is the register's value PUSH stored, or the return address CALL stored. The
spec's decision D11 (log 10); what completes rests on its decisions D3, D4 and D6 (log 3, 4, 5). -/
def Obligations.NextFetchSeesTheWrittenByte : Prop :=
  (∀ (s t : State) (b : Byte) (n : Fin 8) (k : Nat), b.toNat = n.val → s.sp ≠ 0 → exec (.push b) s = .next t →
    t.status = s.status → t.pc.toNat + k + 1 = s.sp.toNat → instrByte t k = .ok (s.readReg n)) ∧
  ∀ (s t : State) (b : Byte) (k : Nat), b.toNat ≤ 7 → s.sp ≠ 0 → s.pc.toNat + 2 ≤ 255 → exec (.call b) s = .next t →
    t.pc.toNat + k + 1 = s.sp.toNat → ∃ v : Byte, instrByte t k = .ok v ∧ v.toNat = s.pc.toNat + 2

/-- The run loop: an ended run is final, so more fuel changes nothing (spec/70_reset_and_hazards.md section 3), and fuel
adds up. -/
def Obligations.EndedRunIsFinal : Prop :=
  ∀ (code : Mnemonic → Byte) (s : State) (j k : Nat),
    runLoop code (j + k) s = runLoop code k (runLoop code j s) ∧
    ((runLoop code j s).ended = true → runLoop code (j + k) s = runLoop code j s)

/-! ## Encoding -/

/-- Decoding an encoded instruction gives it back with the bytes after it, for every instruction, every operand byte and
every opcode map with distinct opcodes, the default among them (log 1). -/
def Obligations.DecodeOfEncodeIsTheInstruction : Prop :=
  (∀ (code : Mnemonic → Byte) (i : Instr) (rest : List Byte), Function.Injective code →
    decodeWith code (encodeWith code i ++ rest) = .ok (i, rest)) ∧
  ∀ (i : Instr) (rest : List Byte), decode (encode i ++ rest) = .ok (i, rest)

/-- Encoding a decoded instruction gives back the bytes it was decoded from: no byte is ignored, under any opcode map. -/
def Obligations.EncodeOfDecodeIsTheBytes : Prop :=
  ∀ (code : Mnemonic → Byte) (bytes : List Byte) (i : Instr) (rest : List Byte),
    decodeWith code bytes = .ok (i, rest) → bytes = encodeWith code i ++ rest

/-- R63, R64: an instruction takes `1 + ARITY` bytes, and its opcode byte alone decides the arity: two instructions decoded
from the same opcode byte have one mnemonic, the one looked up. The lengths are 1 for HLT and RET, 2 for PRN, PUSH, POP and
CALL, 3 for LDI, MUL and ADD. -/
def Obligations.OpcodeAloneDecidesTheLength : Prop :=
  (∀ (code : Mnemonic → Byte) (op : Byte) (bs rest : List Byte) (i : Instr), decodeWith code (op :: bs) = .ok (i, rest) →
    mnemonicOf code op = some i.mnemonic ∧ (op :: bs).length = (1 + arity i.mnemonic) + rest.length ∧
    ∀ (bs' rest' : List Byte) (i' : Instr), decodeWith code (op :: bs') = .ok (i', rest') →
      i'.mnemonic = i.mnemonic) ∧
  ∀ m, 1 + arity m = match m with
    | .hlt | .ret => 1
    | .prn | .push | .pop | .call => 2
    | .ldi | .mul | .add => 3

/-- The default opcode map of spec/30_encoding.md section 3, byte by byte: the nine opcodes are distinct, and every other byte
is unrecognized, 0x00 among them. The bytes are PRESUMED (log 1). -/
def Obligations.DefaultMapHasNineOpcodes : Prop :=
  defaultOpcode .hlt = 0x01 ∧ defaultOpcode .ldi = 0x82 ∧ defaultOpcode .prn = 0x47 ∧ defaultOpcode .mul = 0xA2 ∧
  defaultOpcode .add = 0xA0 ∧ defaultOpcode .push = 0x45 ∧ defaultOpcode .pop = 0x46 ∧ defaultOpcode .call = 0x50 ∧
  defaultOpcode .ret = 0x11 ∧ Function.Injective defaultOpcode ∧
  (∀ op : Byte, mnemonicOf defaultOpcode op = none ↔
    op ∉ ([0x01, 0x82, 0x47, 0xA2, 0xA0, 0x45, 0x46, 0x50, 0x11] : List Byte)) ∧
  ∀ rest, decode (0x00 :: rest) = .error (.unrecognizedOpcode 0x00)

/-- Words written out from the default opcode map of spec/30_encoding.md section 3, one for each of the nine instructions,
decode to what they stand for; a word cut short does not decode. The opcode
bytes are PRESUMED (log 1). -/
def Obligations.SampleWordsDecode : Prop :=
  decode [0b00000001] = .ok (.hlt, []) ∧
  decode [0b10000010, 0b00000000, 0b00001000] = .ok (.ldi 0 8, []) ∧
  decode [0b01000111, 0b00000011, 0xFF] = .ok (.prn 3, [0xFF]) ∧
  decode [0b10100010, 0b00000000, 0b00000001] = .ok (.mul 0 1, []) ∧
  decode [0b10100000, 0b00000010, 0b00000011] = .ok (.add 2 3, []) ∧
  decode [0b01000101, 0b00000100] = .ok (.push 4, []) ∧
  decode [0b01000110, 0b00000101] = .ok (.pop 5, []) ∧
  decode [0b01010000, 0b00000001] = .ok (.call 1, []) ∧
  decode [0b00010001, 0x01] = .ok (.ret, [0x01]) ∧
  decode [0b01000101] = .error (.missingByte 1)
end

