-- ==== Sys2Proof/Laws/Decode.lean ====
section
/-! SUPPORT. The opcode lookup and the decoder, each said once. -/

namespace Sys2Proof

theorem Mnemonic.mem_all (m : Mnemonic) : m ∈ Mnemonic.all := by
  cases m <;> simp [Mnemonic.all]

/-- A mnemonic the lookup finds has that opcode. -/
theorem code_of_mnemonicOf {code : Mnemonic → Byte} {op : Byte} {m : Mnemonic} (h : mnemonicOf code op = some m) :
    code m = op := by
  simpa using List.find?_some h

/-- The lookup finds nothing exactly when the byte is no opcode. -/
theorem mnemonicOf_eq_none {code : Mnemonic → Byte} {op : Byte} :
    mnemonicOf code op = none ↔ ∀ m, code m ≠ op := by
  simp [mnemonicOf, Mnemonic.mem_all]

/-- Under distinct opcodes the lookup inverts the opcode map. -/
theorem mnemonicOf_code {code : Mnemonic → Byte} (hinj : Function.Injective code) (m : Mnemonic) :
    mnemonicOf code (code m) = some m := by
  rcases hm : mnemonicOf code (code m) with _ | m'
  · exact absurd rfl (mnemonicOf_eq_none.mp hm m)
  · rw [hinj (code_of_mnemonicOf hm)]

theorem defaultOpcode_injective : Function.Injective defaultOpcode := by
  intro a b
  cases a <;> cases b <;> decide

@[simp] theorem byteOf_cons_zero (b : Byte) (bs : List Byte) : byteOf (b :: bs) 0 = .ok b := rfl

@[simp] theorem byteOf_cons_one (b c : Byte) (bs : List Byte) : byteOf (b :: c :: bs) 1 = .ok c := rfl

@[simp] theorem byteOf_cons_two (b c d : Byte) (bs : List Byte) : byteOf (b :: c :: d :: bs) 2 = .ok d := rfl

/-- Everything the decoder can answer: the byte source's own error, the rejection of a byte that is no opcode, or the
instruction whose opcode is byte 0 and whose operands are the bytes after it. -/
theorem decodeFrom_cases {ε : Type} (code : Mnemonic → Byte) (bad : Byte → ε) (rd : Nat → Except ε Byte) :
    (∃ e, rd 0 = .error e ∧ decodeFrom code bad rd = .error e) ∨
    (∃ op, rd 0 = .ok op ∧ mnemonicOf code op = none ∧ decodeFrom code bad rd = .error (bad op)) ∨
    (∃ op m, rd 0 = .ok op ∧ mnemonicOf code op = some m ∧
      ((∃ e, 1 ≤ arity m ∧ rd 1 = .error e ∧ decodeFrom code bad rd = .error e) ∨
       (∃ b1 e, 2 ≤ arity m ∧ rd 1 = .ok b1 ∧ rd 2 = .error e ∧ decodeFrom code bad rd = .error e) ∨
       (∃ i, decodeFrom code bad rd = .ok i ∧ i.mnemonic = m ∧
         ∀ k (hk : k < i.operands.length), rd (k + 1) = .ok i.operands[k]))) := by
  unfold decodeFrom
  rcases h0 : rd 0 with e | op
  · simp
  rcases hm : mnemonicOf code op with _ | m
  · simp [hm]
  refine .inr (.inr ⟨op, m, rfl, hm, ?_⟩)
  have one : ∀ build : Byte → Instr, (∀ b, (build b).operands = [b]) → (∀ b, (build b).mnemonic = m) → 1 ≤ arity m →
      ((∃ e, 1 ≤ arity m ∧ rd 1 = .error e ∧ decodeOneOperand rd build = .error e) ∨
       (∃ b1 e, 2 ≤ arity m ∧ rd 1 = .ok b1 ∧ rd 2 = .error e ∧ decodeOneOperand rd build = .error e) ∨
       (∃ i, decodeOneOperand rd build = .ok i ∧ i.mnemonic = m ∧
         ∀ k (hk : k < i.operands.length), rd (k + 1) = .ok i.operands[k])) := by
    intro build hops hmn ha
    unfold decodeOneOperand
    rcases h1 : rd 1 with e | b1
    · exact .inl ⟨e, ha, rfl, rfl⟩
    · refine .inr (.inr ⟨build b1, rfl, hmn b1, ?_⟩)
      simp only [hops]
      intro k hk
      obtain rfl : k = 0 := by simpa using hk
      exact h1
  have two : ∀ build : Byte → Byte → Instr, (∀ a b, (build a b).operands = [a, b]) →
      (∀ a b, (build a b).mnemonic = m) → 2 ≤ arity m →
      ((∃ e, 1 ≤ arity m ∧ rd 1 = .error e ∧ decodeTwoOperands rd build = .error e) ∨
       (∃ b1 e, 2 ≤ arity m ∧ rd 1 = .ok b1 ∧ rd 2 = .error e ∧ decodeTwoOperands rd build = .error e) ∨
       (∃ i, decodeTwoOperands rd build = .ok i ∧ i.mnemonic = m ∧
         ∀ k (hk : k < i.operands.length), rd (k + 1) = .ok i.operands[k])) := by
    intro build hops hmn ha
    unfold decodeTwoOperands
    rcases h1 : rd 1 with e | b1
    · exact .inl ⟨e, by omega, rfl, rfl⟩
    rcases h2 : rd 2 with e | b2
    · exact .inr (.inl ⟨b1, e, ha, rfl, rfl, rfl⟩)
    · refine .inr (.inr ⟨build b1 b2, rfl, hmn b1 b2, ?_⟩)
      simp only [hops]
      intro k hk
      rcases k with _ | _ | k
      · exact h1
      · exact h2
      · simp at hk
  cases m with
  | hlt => exact .inr (.inr ⟨.hlt, by simp [hm], rfl, fun k hk => absurd hk (by simp [Instr.operands])⟩)
  | ret => exact .inr (.inr ⟨.ret, by simp [hm], rfl, fun k hk => absurd hk (by simp [Instr.operands])⟩)
  | ldi => simpa only [hm] using two .ldi (fun _ _ => rfl) (fun _ _ => rfl) (by decide)
  | mul => simpa only [hm] using two .mul (fun _ _ => rfl) (fun _ _ => rfl) (by decide)
  | add => simpa only [hm] using two .add (fun _ _ => rfl) (fun _ _ => rfl) (by decide)
  | prn => simpa only [hm] using one .prn (fun _ => rfl) (fun _ => rfl) (by decide)
  | push => simpa only [hm] using one .push (fun _ => rfl) (fun _ => rfl) (by decide)
  | pop => simpa only [hm] using one .pop (fun _ => rfl) (fun _ => rfl) (by decide)
  | call => simpa only [hm] using one .call (fun _ => rfl) (fun _ => rfl) (by decide)

end Sys2Proof
end

