-- ==== Sys2Proof/Laws/Memory.lean ====
section
/-! SUPPORT. Memory: what reads after a write, that every operation keeps the canonical form, and that memories in canonical
form that read alike are equal data. The read laws hold of every memory, canonical or not. -/

namespace Sys2Proof.Machine

@[simp] theorem Memory.get_nil (a : Nat) : Memory.get [] a = Memory.unlisted := rfl

theorem Memory.get_cons (c : Host.Cell) (m : Memory) (a : Nat) :
    Memory.get (c :: m) a = if c.1 = a then c.2 else Memory.get m a := rfl

/-- Erasing an address makes it read as unlisted, and nothing else. -/
theorem Memory.get_erase (m : Memory) (a b : Nat) :
    (m.erase a).get b = if b = a then Memory.unlisted else m.get b := by
  induction m with
  | nil => simp [Memory.erase, Memory.get]
  | cons c m ih =>
    unfold Memory.erase at ih ⊢
    by_cases hc : c.1 = a
    · rw [List.filter_cons_of_neg (by simp [hc]), ih, Memory.get_cons]
      by_cases hb : b = a
      · simp [hb]
      · simp [hb, hc, Ne.symm hb]
    · rw [List.filter_cons_of_pos (by simp [hc]), Memory.get_cons, ih, Memory.get_cons]
      by_cases hb : b = a
      · simp [hb, hc]
      · simp [hb]

/-- Inserting an address a memory does not list changes the reading of that address alone. -/
theorem Memory.get_insert (m : Memory) (a b : Nat) (v : Byte) (h : ∀ c ∈ m, c.1 ≠ a) :
    (m.insert a v).get b = if b = a then v else m.get b := by
  induction m with
  | nil => simp [Memory.insert, Memory.get, eq_comm]
  | cons c m ih =>
    have hc : c.1 ≠ a := h c (by simp)
    have ih := ih fun d hd => h d (by simp [hd])
    unfold Memory.insert
    split
    · simp [Memory.get_cons, eq_comm]
    · rw [Memory.get_cons, ih, Memory.get_cons]
      by_cases hb : b = a
      · simp [hb, hc]
      · simp [hb]

theorem Memory.ne_of_mem_erase {m : Memory} {a : Nat} {c : Host.Cell} (h : c ∈ m.erase a) : c.1 ≠ a := by
  simpa [Memory.erase] using (List.mem_filter.mp h).2

/-- A write changes the byte at its address and no other. -/
theorem Memory.get_set (m : Memory) (a b : Nat) (v : Byte) :
    (m.set a v).get b = if b = a then v else m.get b := by
  unfold Memory.set
  split
  · rename_i hv
    rw [Memory.get_erase, hv]
  · rw [Memory.get_insert _ _ _ _ fun c hc => Memory.ne_of_mem_erase hc, Memory.get_erase]
    split <;> rfl

@[simp] theorem Memory.get_set_self (m : Memory) (a : Nat) (v : Byte) : (m.set a v).get a = v := by
  simp [Memory.get_set]

theorem Memory.get_set_ne (m : Memory) {a b : Nat} (v : Byte) (h : b ≠ a) : (m.set a v).get b = m.get b := by
  simp [Memory.get_set, h]

/-! ## The canonical form -/

/-- What the canonical form says, as propositions. -/
theorem Memory.wf_iff (m : Memory) :
    m.wf = true ↔ m.Pairwise (fun c d => c.1 < d.1) ∧ ∀ c ∈ m, c.1 < Config.memSize ∧ c.2 ≠ Memory.unlisted := by
  simp [Memory.wf]

theorem Memory.mem_insert {m : Memory} {a : Nat} {v : Byte} {d : Host.Cell} (h : d ∈ m.insert a v) :
    d = (a, v) ∨ d ∈ m := by
  induction m with
  | nil => simpa [Memory.insert] using h
  | cons c m ih =>
    unfold Memory.insert at h
    split at h
    · simpa using h
    · rcases List.mem_cons.mp h with rfl | h
      · simp
      · rcases ih h with h | h <;> simp [h]

/-- Inserting keeps the addresses rising. -/
theorem Memory.pairwise_insert (m : Memory) (a : Nat) (v : Byte) (hm : m.Pairwise fun c d => c.1 < d.1)
    (ha : ∀ c ∈ m, c.1 ≠ a) : (m.insert a v).Pairwise fun c d => c.1 < d.1 := by
  induction m with
  | nil => simp [Memory.insert]
  | cons c m ih =>
    have ⟨hc, hm'⟩ := List.pairwise_cons.mp hm
    unfold Memory.insert
    split
    · rename_i hlt
      refine List.pairwise_cons.mpr ⟨fun d hd => ?_, hm⟩
      rcases List.mem_cons.mp hd with rfl | hd
      · exact hlt
      · exact lt_trans hlt (hc d hd)
    · rename_i hge
      refine List.pairwise_cons.mpr ⟨fun d hd => ?_, ih hm' fun d hd => ha d (by simp [hd])⟩
      rcases Memory.mem_insert hd with rfl | hd
      · have := ha c (by simp)
        dsimp only
        omega
      · exact hc d hd

/-- A write in 0..255 keeps the canonical form. -/
theorem Memory.wf_set (m : Memory) (a : Nat) (v : Byte) (ha : a < Config.memSize) (hm : m.wf = true) :
    (m.set a v).wf = true := by
  rw [Memory.wf_iff] at hm ⊢
  have he : (m.erase a).Pairwise fun c d => c.1 < d.1 := hm.1.filter _
  have hall : ∀ c ∈ m.erase a, c.1 < Config.memSize ∧ c.2 ≠ Memory.unlisted :=
    fun c hc => hm.2 c (List.mem_of_mem_filter hc)
  unfold Memory.set
  split
  · exact ⟨he, hall⟩
  · rename_i hv
    refine ⟨Memory.pairwise_insert _ _ _ he fun c hc => Memory.ne_of_mem_erase hc, fun c hc => ?_⟩
    rcases Memory.mem_insert hc with rfl | hc
    · exact ⟨ha, hv⟩
    · exact hall c hc

/-- Placing bytes keeps the canonical form. -/
theorem Memory.wf_place (m : Memory) (a : Nat) (vs : List Byte) (hm : m.wf = true) : (m.place a vs).wf = true := by
  induction vs generalizing m a with
  | nil => exact hm
  | cons v vs ih =>
    unfold Memory.place
    apply ih
    split
    · exact hm
    · rename_i ha
      exact Memory.wf_set m a v (by simp only [Config.addrMax, Config.memSize] at *; omega) hm

theorem Memory.wf_reset : State.reset.mem.wf = true := rfl

/-- An address below every listed one reads as unlisted. -/
theorem Memory.get_of_lt (m : Memory) (a : Nat) (h : ∀ c ∈ m, a < c.1) : m.get a = Memory.unlisted := by
  induction m with
  | nil => rfl
  | cons c m ih =>
    have hc := h c (by simp)
    rw [Memory.get_cons, if_neg (by omega)]
    exact ih fun d hd => h d (by simp [hd])

/-- Memories in canonical form that read alike everywhere are the same list. -/
theorem Memory.ext_of_wf (m m' : Memory) (hm : m.wf = true) (hm' : m'.wf = true) (h : ∀ a, m.get a = m'.get a) :
    m = m' := by
  rw [Memory.wf_iff] at hm hm'
  induction m generalizing m' with
  | nil =>
    cases m' with
    | nil => rfl
    | cons d n =>
      have h0 := h d.1
      rw [Memory.get_nil, Memory.get_cons, if_pos rfl] at h0
      exact absurd h0.symm (hm'.2 d (by simp)).2
  | cons c m ih =>
    have ⟨hc, hmp⟩ := List.pairwise_cons.mp hm.1
    cases m' with
    | nil =>
      have h0 := h c.1
      rw [Memory.get_nil, Memory.get_cons, if_pos rfl] at h0
      exact absurd h0 (hm.2 c (by simp)).2
    | cons d n =>
      have ⟨hd, hnp⟩ := List.pairwise_cons.mp hm'.1
      have ltCase : ∀ (c d : Host.Cell) (k : Memory), (∀ e ∈ k, d.1 < e.1) → c.1 < d.1 →
          Memory.get (d :: k) c.1 = Memory.unlisted := fun c d k hk hlt =>
        Memory.get_of_lt _ _ fun e he => by
          rcases List.mem_cons.mp he with rfl | he
          · exact hlt
          · exact lt_trans hlt (hk e he)
      have key : c.1 = d.1 := by
        rcases lt_trichotomy c.1 d.1 with hlt | heq | hgt
        · have h0 := h c.1
          rw [ltCase c d n hd hlt, Memory.get_cons, if_pos rfl] at h0
          exact absurd h0 (hm.2 c (by simp)).2
        · exact heq
        · have h0 := h d.1
          rw [ltCase d c m hc hgt, Memory.get_cons, if_pos rfl] at h0
          exact absurd h0.symm (hm'.2 d (by simp)).2
      have hval : c.2 = d.2 := by
        have h0 := h c.1
        rwa [Memory.get_cons, if_pos rfl, Memory.get_cons, if_pos key.symm] at h0
      have htail : m = n := by
        refine ih n ⟨hmp, fun e he => hm.2 e (by simp [he])⟩ ⟨hnp, fun e he => hm'.2 e (by simp [he])⟩ fun a => ?_
        have h0 := h a
        rw [Memory.get_cons, Memory.get_cons, ← key, ← hval] at h0
        by_cases ha : c.1 = a
        · rw [Memory.get_of_lt m a fun e he => ha ▸ hc e he, Memory.get_of_lt n a fun e he => ha ▸ key ▸ hd e he]
        · rwa [if_neg ha, if_neg ha] at h0
      rw [htail, Prod.ext key hval]

/-! ## The bounds check -/

theorem memRead_of_le (m : Memory) {a : Nat} (h : a ≤ Config.addrMax) : memRead m a = .ok (m.get a) := by
  simp [memRead, Nat.not_lt.mpr h]

theorem memRead_of_gt (m : Memory) {a : Nat} (h : Config.addrMax < a) :
    memRead m a = .error (.outOfBounds (.memAddr a)) := by
  simp [memRead, h]

/-- A read answers an error exactly past 255, and the address is what it records. -/
theorem memRead_error (m : Memory) (a : Nat) (e : ErrorReport) :
    memRead m a = .error e ↔ Config.addrMax < a ∧ e = .outOfBounds (.memAddr a) := by
  by_cases h : Config.addrMax < a
  · simp [memRead_of_gt m h, h, eq_comm]
  · simp [memRead_of_le m (Nat.not_lt.mp h), h]

theorem memWrite_of_le (m : Memory) {a : Nat} (v : Byte) (h : a ≤ Config.addrMax) : memWrite m a v = .ok (m.set a v) := by
  simp [memWrite, Nat.not_lt.mpr h]

theorem memWrite_of_gt (m : Memory) {a : Nat} (v : Byte) (h : Config.addrMax < a) :
    memWrite m a v = .error (.outOfBounds (.memAddr a)) := by
  simp [memWrite, h]

/-- A write that is answered keeps the canonical form. -/
theorem memWrite_wf {m m' : Memory} {a : Nat} {v : Byte} (h : memWrite m a v = .ok m') (hm : m.wf = true) :
    m'.wf = true := by
  rcases Nat.lt_or_ge Config.addrMax a with hgt | hle
  · rw [memWrite_of_gt m v hgt] at h
    cases h
  · rw [memWrite_of_le m v hle] at h
    cases h
    exact Memory.wf_set m a v (Nat.lt_succ_of_le hle) hm

/-- A byte is an address: a read or write at one never raises. -/
theorem byte_le_addrMax (b : Byte) : b.toNat ≤ Config.addrMax := by
  have := b.isLt
  simp only [Config.addrMax]
  omega

end Sys2Proof.Machine
end

