-- ==== Sys2Proof/Laws/State.lean ====
section
/-! SUPPORT. Each field after each update of the state, so that no proof unfolds a record update. -/

namespace Sys2Proof.Machine

/-! ## Fields after an update -/

@[simp] theorem State.setReg_regs (s : State) (n : Fin Config.nReg) (v : Byte) : (s.setReg n v).regs = s.regs.set n v := rfl
@[simp] theorem State.setReg_pc (s : State) (n : Fin Config.nReg) (v : Byte) : (s.setReg n v).pc = s.pc := rfl
@[simp] theorem State.setReg_sp (s : State) (n : Fin Config.nReg) (v : Byte) : (s.setReg n v).sp = s.sp := rfl
@[simp] theorem State.setReg_mem (s : State) (n : Fin Config.nReg) (v : Byte) : (s.setReg n v).mem = s.mem := rfl
@[simp] theorem State.setReg_status (s : State) (n : Fin Config.nReg) (v : Byte) : (s.setReg n v).status = s.status := rfl
@[simp] theorem State.setReg_out (s : State) (n : Fin Config.nReg) (v : Byte) : (s.setReg n v).out = s.out := rfl

@[simp] theorem State.setPc_regs (s : State) (v : Byte) : (s.setPc v).regs = s.regs := rfl
@[simp] theorem State.setPc_pc (s : State) (v : Byte) : (s.setPc v).pc = v := rfl
@[simp] theorem State.setPc_sp (s : State) (v : Byte) : (s.setPc v).sp = s.sp := rfl
@[simp] theorem State.setPc_mem (s : State) (v : Byte) : (s.setPc v).mem = s.mem := rfl
@[simp] theorem State.setPc_status (s : State) (v : Byte) : (s.setPc v).status = s.status := rfl
@[simp] theorem State.setPc_out (s : State) (v : Byte) : (s.setPc v).out = s.out := rfl

@[simp] theorem State.setSp_regs (s : State) (v : Byte) : (s.setSp v).regs = s.regs := rfl
@[simp] theorem State.setSp_pc (s : State) (v : Byte) : (s.setSp v).pc = s.pc := rfl
@[simp] theorem State.setSp_sp (s : State) (v : Byte) : (s.setSp v).sp = v := rfl
@[simp] theorem State.setSp_mem (s : State) (v : Byte) : (s.setSp v).mem = s.mem := rfl
@[simp] theorem State.setSp_status (s : State) (v : Byte) : (s.setSp v).status = s.status := rfl
@[simp] theorem State.setSp_out (s : State) (v : Byte) : (s.setSp v).out = s.out := rfl

@[simp] theorem State.setMem_regs (s : State) (m : Memory) : (s.setMem m).regs = s.regs := rfl
@[simp] theorem State.setMem_pc (s : State) (m : Memory) : (s.setMem m).pc = s.pc := rfl
@[simp] theorem State.setMem_sp (s : State) (m : Memory) : (s.setMem m).sp = s.sp := rfl
@[simp] theorem State.setMem_mem (s : State) (m : Memory) : (s.setMem m).mem = m := rfl
@[simp] theorem State.setMem_status (s : State) (m : Memory) : (s.setMem m).status = s.status := rfl
@[simp] theorem State.setMem_out (s : State) (m : Memory) : (s.setMem m).out = s.out := rfl

@[simp] theorem State.setStatus_regs (s : State) (st : Status) : (s.setStatus st).regs = s.regs := rfl
@[simp] theorem State.setStatus_pc (s : State) (st : Status) : (s.setStatus st).pc = s.pc := rfl
@[simp] theorem State.setStatus_sp (s : State) (st : Status) : (s.setStatus st).sp = s.sp := rfl
@[simp] theorem State.setStatus_mem (s : State) (st : Status) : (s.setStatus st).mem = s.mem := rfl
@[simp] theorem State.setStatus_status (s : State) (st : Status) : (s.setStatus st).status = st := rfl
@[simp] theorem State.setStatus_out (s : State) (st : Status) : (s.setStatus st).out = s.out := rfl

@[simp] theorem State.emit_regs (s : State) (v : Byte) : (s.emit v).regs = s.regs := rfl
@[simp] theorem State.emit_pc (s : State) (v : Byte) : (s.emit v).pc = s.pc := rfl
@[simp] theorem State.emit_sp (s : State) (v : Byte) : (s.emit v).sp = s.sp := rfl
@[simp] theorem State.emit_mem (s : State) (v : Byte) : (s.emit v).mem = s.mem := rfl
@[simp] theorem State.emit_status (s : State) (v : Byte) : (s.emit v).status = s.status := rfl
@[simp] theorem State.emit_out (s : State) (v : Byte) : (s.emit v).out = s.out ++ [v] := rfl

/-! ## Registers after an update -/

@[simp] theorem State.readReg_setPc (s : State) (v : Byte) (r : Fin Config.nReg) :
    (s.setPc v).readReg r = s.readReg r := rfl
@[simp] theorem State.readReg_setSp (s : State) (v : Byte) (r : Fin Config.nReg) :
    (s.setSp v).readReg r = s.readReg r := rfl
@[simp] theorem State.readReg_setMem (s : State) (m : Memory) (r : Fin Config.nReg) :
    (s.setMem m).readReg r = s.readReg r := rfl
@[simp] theorem State.readReg_setStatus (s : State) (st : Status) (r : Fin Config.nReg) :
    (s.setStatus st).readReg r = s.readReg r := rfl
@[simp] theorem State.readReg_emit (s : State) (v : Byte) (r : Fin Config.nReg) :
    (s.emit v).readReg r = s.readReg r := rfl

/-- Reading a register after writing one. -/
theorem State.readReg_setReg (s : State) (n r : Fin Config.nReg) (v : Byte) :
    (s.setReg n v).readReg r = if r = n then v else s.readReg r := by
  unfold readReg setReg
  simp only [Fin.getElem_fin, Vector.getElem_set]
  rcases eq_or_ne r n with h | h
  · simp [h]
  · rw [if_neg fun e => h (Fin.ext e).symm, if_neg h]

@[simp] theorem State.readReg_setReg_self (s : State) (n : Fin Config.nReg) (v : Byte) :
    (s.setReg n v).readReg n = v := by
  simp [State.readReg_setReg]

/-- Two register files that agree at every register are equal. -/
theorem regs_ext {x y : Vector Byte Config.nReg} (h : ∀ r : Fin Config.nReg, x[r] = y[r]) : x = y :=
  Vector.ext fun i hi => h ⟨i, hi⟩

end Sys2Proof.Machine
end

