-- ==== Sys2Proof/Laws/Ops.lean ====
section
/-! SUPPORT. One lemma per shared operation that says everything it can do; proofs cite it instead of unfolding the
operation. -/

namespace Sys2Proof.Machine

/-- A raise answers the state with its status changed, and nothing else. -/
theorem raise_next (e : ErrorReport) (s t : State) : raise e s = .next t ↔ t = s.setStatus (.error e) := by
  simp [raise, eq_comm]

/-! ## Register operands -/

theorem reg_of_lt {b : Byte} (h : b.toNat < Config.nReg) : reg b = .ok ⟨b.toNat, h⟩ := by
  simp [reg, h]

theorem reg_of_ge {b : Byte} (h : ¬ b.toNat < Config.nReg) : reg b = .error (.outOfBounds (.regIndex b)) := by
  simp [reg, h]

/-- What a register operand decodes to: the register of its value, or RegIndex of it when it is above 7. -/
theorem reg_cases (b : Byte) :
    (∃ n : Fin Config.nReg, reg b = .ok n ∧ n.val = b.toNat) ∨
    (¬ b.toNat < Config.nReg ∧ reg b = .error (.outOfBounds (.regIndex b))) := by
  by_cases h : b.toNat < Config.nReg
  · exact .inl ⟨⟨b.toNat, h⟩, reg_of_lt h, rfl⟩
  · exact .inr ⟨h, reg_of_ge h⟩

theorem reg_ok {b : Byte} {n : Fin Config.nReg} : reg b = .ok n ↔ b.toNat = n.val := by
  rcases reg_cases b with ⟨m, hm, hv⟩ | ⟨hb, he⟩
  · rw [hm, ← hv]
    simp [Fin.ext_iff]
  · rw [he]
    simp only [reduceCtorEq, false_iff]
    omega

/-- What a pair of register operands decodes to, `b1` first. -/
theorem regPair_cases (b1 b2 : Byte) :
    (∃ a b : Fin Config.nReg, regPair b1 b2 = .ok (a, b) ∧ a.val = b1.toNat ∧ b.val = b2.toNat) ∨
    (¬ b1.toNat < Config.nReg ∧ regPair b1 b2 = .error (.outOfBounds (.regIndex b1))) ∨
    (b1.toNat < Config.nReg ∧ ¬ b2.toNat < Config.nReg ∧ regPair b1 b2 = .error (.outOfBounds (.regIndex b2))) := by
  unfold regPair
  rcases reg_cases b1 with ⟨a, ha, hav⟩ | ⟨h1, he1⟩
  · have h1 : b1.toNat < Config.nReg := hav ▸ a.isLt
    rcases reg_cases b2 with ⟨b, hb, hbv⟩ | ⟨h2, he2⟩
    · exact .inl ⟨a, b, by rw [ha, hb], hav, hbv⟩
    · exact .inr (.inr ⟨h1, h2, by rw [ha, he2]⟩)
  · exact .inr (.inl ⟨h1, by rw [he1]⟩)

/-! ## The sequential advance -/

theorem advance_of_le {n : Nat} {s : State} (h : s.pc.toNat + n ≤ Config.addrMax) :
    advance n s = .next (s.setPc (BitVec.ofNat 8 (s.pc.toNat + n))) := by
  simp [advance, Nat.not_lt.mpr h]

theorem advance_of_gt {n : Nat} {s : State} (h : Config.addrMax < s.pc.toNat + n) :
    advance n s = raise (.outOfBounds (.memAddr (s.pc.toNat + n))) s := by
  simp [advance, h]

/-- The advance moves `PC` by exactly `n` without wrap, or raises and leaves `PC` where it is. -/
theorem advance_cases (n : Nat) (s t : State) (h : advance n s = .next t) :
    (s.pc.toNat + n ≤ Config.addrMax ∧ t.pc.toNat = s.pc.toNat + n ∧ t = s.setPc t.pc) ∨
    (Config.addrMax < s.pc.toNat + n ∧ t = s.setStatus (.error (.outOfBounds (.memAddr (s.pc.toNat + n))))) := by
  rcases Nat.lt_or_ge Config.addrMax (s.pc.toNat + n) with hgt | hle
  · rw [advance_of_gt hgt, raise_next] at h
    exact .inr ⟨hgt, h⟩
  · rw [advance_of_le hle] at h
    obtain rfl := Host.Outcome.next.inj h
    refine .inl ⟨hle, ?_, rfl⟩
    have : s.pc.toNat + n < 2 ^ 8 := by simp only [Config.addrMax] at hle; omega
    simpa [BitVec.toNat_ofNat] using this

/-- The advance always answers a next state. -/
theorem advance_completes (n : Nat) (s : State) : ∃ t, advance n s = .next t := by
  unfold advance
  dsimp only
  split
  · exact ⟨_, rfl⟩
  · exact ⟨_, rfl⟩

/-! ## The stack -/

theorem toNat_sub_one {b : Byte} (h : b ≠ 0) : (b - 1).toNat = b.toNat - 1 := by
  have : b.toNat ≠ 0 := fun e => h (BitVec.eq_of_toNat_eq e)
  have := b.isLt
  rw [BitVec.toNat_sub]
  simp
  omega

/-- The slot of the next push is one below `SP`, or StackOverflow when `SP = 0`. -/
theorem pushSlot_cases (s : State) :
    (s.sp = 0 ∧ pushSlot s = .error (.outOfBounds .stackOverflow)) ∨
    (s.sp ≠ 0 ∧ pushSlot s = .ok (s.sp - 1) ∧ (s.sp - 1).toNat + 1 = s.sp.toNat) := by
  unfold pushSlot
  by_cases h : s.sp = 0
  · exact .inl ⟨h, if_pos h⟩
  · have hne : s.sp.toNat ≠ 0 := fun e => h (BitVec.eq_of_toNat_eq e)
    have := toNat_sub_one h
    exact .inr ⟨h, if_neg h, by omega⟩

/-- A push always fits in memory: a slot is a byte, so an address. -/
@[simp] theorem pushAt_eq (slot v : Byte) (s : State) :
    pushAt slot v s = .ok ((s.setSp slot).setMem (s.mem.set slot.toNat v)) := by
  simp [pushAt, memWrite_of_le _ _ (byte_le_addrMax slot)]

/-- A pop reads the top byte and moves `SP` up by one, or StackUnderflow when `SP` is at or above `SP_INIT`. -/
theorem popByte_cases (s : State) :
    (spInit.toNat ≤ s.sp.toNat ∧ popByte s = .error (.outOfBounds .stackUnderflow)) ∨
    (s.sp.toNat < spInit.toNat ∧ popByte s = .ok (s.mem.get s.sp.toNat, s.setSp (s.sp + 1)) ∧
      (s.sp + 1).toNat = s.sp.toNat + 1) := by
  unfold popByte
  by_cases h : spInit.toNat ≤ s.sp.toNat
  · exact .inl ⟨h, if_pos h⟩
  · rw [if_neg h, memRead_of_le _ (byte_le_addrMax s.sp)]
    have := spInit.isLt
    refine .inr ⟨Nat.lt_of_not_le h, rfl, ?_⟩
    rw [BitVec.toNat_add]
    simp
    omega

/-- CALL's return address is `PC + 2`, or MemAddr of it when it is past 255. -/
theorem returnAddress_cases (s : State) :
    (Config.addrMax < s.pc.toNat + 2 ∧ returnAddress s = .error (.outOfBounds (.memAddr (s.pc.toNat + 2)))) ∨
    (s.pc.toNat + 2 ≤ Config.addrMax ∧ ∃ ret : Byte, returnAddress s = .ok ret ∧ ret.toNat = s.pc.toNat + 2) := by
  unfold returnAddress
  dsimp only
  rcases Nat.lt_or_ge Config.addrMax (s.pc.toNat + 2) with hgt | hle
  · exact .inl ⟨hgt, if_pos hgt⟩
  · refine .inr ⟨hle, _, if_neg (Nat.not_lt.mpr hle), ?_⟩
    have : s.pc.toNat + 2 < 2 ^ 8 := by simp only [Config.addrMax] at hle; omega
    simpa [BitVec.toNat_ofNat] using this

/-! ## The ALU -/

/-- The sum narrowed modulo 256. -/
theorem aluApply_add_toNat (a b : Byte) : (aluApply .add a b).toNat = (a.toNat + b.toNat) % 256 := by
  simp [aluApply]

/-- The product narrowed modulo 256. -/
theorem aluApply_mul_toNat (a b : Byte) : (aluApply .mul a b).toNat = a.toNat * b.toNat % 256 := by
  simp [aluApply]

/-- The ALU's addition is the word's addition. -/
theorem aluApply_add (a b : Byte) : aluApply .add a b = a + b :=
  BitVec.eq_of_toNat_eq (by simp [aluApply])

/-- The ALU's multiplication is the word's multiplication. -/
theorem aluApply_mul (a b : Byte) : aluApply .mul a b = a * b :=
  BitVec.eq_of_toNat_eq (by simp [aluApply])

end Sys2Proof.Machine
end

