-- ==== Sys2Proof/Laws/Exec.lean ====
section
/-! SUPPORT. What each handler, the fetch and the cycle can do, said once: every later proof takes its cases from here. -/

namespace Sys2Proof.Machine

/-! ## Handlers: the error each check raises, or the one effect -/

theorem execPrn_cases (b : Byte) (s : State) :
    (¬ b.toNat < Config.nReg ∧ exec (.prn b) s = raise (.outOfBounds (.regIndex b)) s) ∨
    (∃ n : Fin Config.nReg, n.val = b.toNat ∧ exec (.prn b) s = advance 2 (s.emit (s.readReg n))) := by
  rcases reg_cases b with ⟨n, hn, hv⟩ | ⟨hb, he⟩
  · exact .inr ⟨n, hv, by simp [exec, execPrn, hn]⟩
  · exact .inl ⟨hb, by simp [exec, execPrn, he]⟩

theorem execLdi_cases (b v : Byte) (s : State) :
    (¬ b.toNat < Config.nReg ∧ exec (.ldi b v) s = raise (.outOfBounds (.regIndex b)) s) ∨
    (∃ n : Fin Config.nReg, n.val = b.toNat ∧ exec (.ldi b v) s = advance 3 (s.setReg n v)) := by
  rcases reg_cases b with ⟨n, hn, hv⟩ | ⟨hb, he⟩
  · exact .inr ⟨n, hv, by simp [exec, execLdi, hn]⟩
  · exact .inl ⟨hb, by simp [exec, execLdi, he]⟩

/-- MUL and ADD, through the shape they share. -/
theorem aluToRegister_cases (op : AluOp) (b1 b2 : Byte) (s : State) :
    (¬ b1.toNat < Config.nReg ∧ aluToRegister op b1 b2 s = raise (.outOfBounds (.regIndex b1)) s) ∨
    (b1.toNat < Config.nReg ∧ ¬ b2.toNat < Config.nReg ∧
      aluToRegister op b1 b2 s = raise (.outOfBounds (.regIndex b2)) s) ∨
    (∃ a b : Fin Config.nReg, a.val = b1.toNat ∧ b.val = b2.toNat ∧
      aluToRegister op b1 b2 s = advance 3 (s.setReg a (aluApply op (s.readReg a) (s.readReg b)))) := by
  rcases regPair_cases b1 b2 with ⟨a, b, h, ha, hb⟩ | ⟨h1, h⟩ | ⟨h1, h2, h⟩
  · exact .inr (.inr ⟨a, b, ha, hb, by simp [aluToRegister, h]⟩)
  · exact .inl ⟨h1, by simp [aluToRegister, h]⟩
  · exact .inr (.inl ⟨h1, h2, by simp [aluToRegister, h]⟩)

theorem exec_mul (b1 b2 : Byte) (s : State) : exec (.mul b1 b2) s = aluToRegister .mul b1 b2 s := rfl

theorem exec_add (b1 b2 : Byte) (s : State) : exec (.add b1 b2) s = aluToRegister .add b1 b2 s := rfl

theorem execPush_cases (b : Byte) (s : State) :
    (¬ b.toNat < Config.nReg ∧ exec (.push b) s = raise (.outOfBounds (.regIndex b)) s) ∨
    (b.toNat < Config.nReg ∧ s.sp = 0 ∧ exec (.push b) s = raise (.outOfBounds .stackOverflow) s) ∨
    (∃ n : Fin Config.nReg, n.val = b.toNat ∧ s.sp ≠ 0 ∧
      exec (.push b) s = advance 2 ((s.setSp (s.sp - 1)).setMem (s.mem.set (s.sp - 1).toNat (s.readReg n)))) := by
  rcases reg_cases b with ⟨n, hn, hv⟩ | ⟨hb, he⟩
  · rcases pushSlot_cases s with ⟨h0, hp⟩ | ⟨h0, hp, -⟩
    · exact .inr (.inl ⟨hv ▸ n.isLt, h0, by simp [exec, execPush, hn, hp]⟩)
    · exact .inr (.inr ⟨n, hv, h0, by simp [exec, execPush, hn, hp]⟩)
  · exact .inl ⟨hb, by simp [exec, execPush, he]⟩

theorem execPop_cases (b : Byte) (s : State) :
    (¬ b.toNat < Config.nReg ∧ exec (.pop b) s = raise (.outOfBounds (.regIndex b)) s) ∨
    (b.toNat < Config.nReg ∧ spInit.toNat ≤ s.sp.toNat ∧ exec (.pop b) s = raise (.outOfBounds .stackUnderflow) s) ∨
    (∃ n : Fin Config.nReg, n.val = b.toNat ∧ s.sp.toNat < spInit.toNat ∧ (s.sp + 1).toNat = s.sp.toNat + 1 ∧
      exec (.pop b) s = advance 2 ((s.setSp (s.sp + 1)).setReg n (s.mem.get s.sp.toNat))) := by
  rcases reg_cases b with ⟨n, hn, hv⟩ | ⟨hb, he⟩
  · rcases popByte_cases s with ⟨h0, hp⟩ | ⟨h0, hp, h1⟩
    · exact .inr (.inl ⟨hv ▸ n.isLt, h0, by simp [exec, execPop, hn, hp]⟩)
    · exact .inr (.inr ⟨n, hv, h0, h1, by simp [exec, execPop, hn, hp]⟩)
  · exact .inl ⟨hb, by simp [exec, execPop, he]⟩

theorem execCall_cases (b : Byte) (s : State) :
    (¬ b.toNat < Config.nReg ∧ exec (.call b) s = raise (.outOfBounds (.regIndex b)) s) ∨
    (b.toNat < Config.nReg ∧ s.sp = 0 ∧ exec (.call b) s = raise (.outOfBounds .stackOverflow) s) ∨
    (b.toNat < Config.nReg ∧ s.sp ≠ 0 ∧ Config.addrMax < s.pc.toNat + 2 ∧
      exec (.call b) s = raise (.outOfBounds (.memAddr (s.pc.toNat + 2))) s) ∨
    (∃ (n : Fin Config.nReg) (ret : Byte), n.val = b.toNat ∧ s.sp ≠ 0 ∧ s.pc.toNat + 2 ≤ Config.addrMax ∧
      ret.toNat = s.pc.toNat + 2 ∧
      exec (.call b) s =
        .next (((s.setSp (s.sp - 1)).setMem (s.mem.set (s.sp - 1).toNat ret)).setPc (s.readReg n))) := by
  rcases reg_cases b with ⟨n, hn, hv⟩ | ⟨hb, he⟩
  · have hlt : b.toNat < Config.nReg := hv ▸ n.isLt
    rcases pushSlot_cases s with ⟨h0, hp⟩ | ⟨h0, hp, -⟩
    · exact .inr (.inl ⟨hlt, h0, by simp [exec, execCall, hn, hp]⟩)
    · rcases returnAddress_cases s with ⟨hr, hre⟩ | ⟨hr, ret, hro, hrv⟩
      · exact .inr (.inr (.inl ⟨hlt, h0, hr, by simp [exec, execCall, hn, hp, hre]⟩))
      · exact .inr (.inr (.inr ⟨n, ret, hv, h0, hr, hrv, by simp [exec, execCall, hn, hp, hro]⟩))
  · exact .inl ⟨hb, by simp [exec, execCall, he]⟩

theorem execRet_cases (s : State) :
    (spInit.toNat ≤ s.sp.toNat ∧ exec .ret s = raise (.outOfBounds .stackUnderflow) s) ∨
    (s.sp.toNat < spInit.toNat ∧ (s.sp + 1).toNat = s.sp.toNat + 1 ∧
      exec .ret s = .next ((s.setSp (s.sp + 1)).setPc (s.mem.get s.sp.toNat))) := by
  rcases popByte_cases s with ⟨h0, hp⟩ | ⟨h0, hp, h1⟩
  · exact .inl ⟨h0, by simp [exec, execRet, hp]⟩
  · exact .inr ⟨h0, h1, by simp [exec, execRet, hp]⟩

theorem exec_hlt (s : State) : exec .hlt s = .next (s.setStatus .halted) := rfl

/-! ## Fetch -/

theorem instrByte_zero (s : State) : instrByte s 0 = .ok (s.mem.get s.pc.toNat) :=
  memRead_of_le _ (byte_le_addrMax s.pc)

theorem instrByte_of_le {s : State} {k : Nat} (h : s.pc.toNat + k ≤ Config.addrMax) :
    instrByte s k = .ok (s.mem.get (s.pc.toNat + k)) :=
  memRead_of_le _ h

theorem instrByte_error {s : State} {k : Nat} {e : ErrorReport} :
    instrByte s k = .error e ↔ Config.addrMax < s.pc.toNat + k ∧ e = .outOfBounds (.memAddr (s.pc.toNat + k)) :=
  memRead_error _ _ _

theorem instrByte_ok {s : State} {k : Nat} {v : Byte} :
    instrByte s k = .ok v ↔ s.pc.toNat + k ≤ Config.addrMax ∧ v = s.mem.get (s.pc.toNat + k) := by
  rcases Nat.lt_or_ge Config.addrMax (s.pc.toNat + k) with hgt | hle
  · rw [instrByte, memRead_of_gt _ hgt]
    refine ⟨fun h => (by cases h), fun h => ?_⟩
    exact absurd h.1 (Nat.not_le.mpr hgt)
  · rw [instrByte_of_le hle]
    exact ⟨fun h => ⟨hle, (Except.ok.inj h).symm⟩, fun h => congrArg _ h.2.symm⟩

/-- Everything the fetch can answer: the byte at `PC` is no opcode; an operand byte lies at address 256; or the instruction
whose opcode and operands are the bytes from `PC` up, all within memory. -/
theorem fetchInstr_cases (code : Mnemonic → Byte) (s : State) :
    (mnemonicOf code (s.mem.get s.pc.toNat) = none ∧
      fetchInstr code s = .error (.unrecognizedOpcode (s.mem.get s.pc.toNat))) ∨
    (∃ m k, mnemonicOf code (s.mem.get s.pc.toNat) = some m ∧ 1 ≤ k ∧ k ≤ arity m ∧ s.pc.toNat + k = 256 ∧
      fetchInstr code s = .error (.outOfBounds (.memAddr 256))) ∨
    (∃ i : Instr, mnemonicOf code (s.mem.get s.pc.toNat) = some i.mnemonic ∧ fetchInstr code s = .ok i ∧
      ∀ k (hk : k < i.operands.length),
        s.pc.toNat + (k + 1) ≤ Config.addrMax ∧ i.operands[k] = s.mem.get (s.pc.toNat + (k + 1))) := by
  have hpc := s.pc.isLt
  rcases decodeFrom_cases code .unrecognizedOpcode (instrByte s) with
    ⟨e, h0, -⟩ | ⟨op, h0, hm, hd⟩ | ⟨op, m, h0, hm, h⟩
  · rw [instrByte_zero] at h0
    cases h0
  · rw [instrByte_zero] at h0
    cases h0
    exact .inl ⟨hm, hd⟩
  · rw [instrByte_zero] at h0
    cases h0
    rcases h with ⟨e, ha, h1, hd⟩ | ⟨b1, e, ha, h1, h2, hd⟩ | ⟨i, hd, rfl, hk⟩
    · obtain ⟨hgt, rfl⟩ := instrByte_error.mp h1
      simp only [Config.addrMax] at hgt
      have h256 : s.pc.toNat + 1 = 256 := by omega
      exact .inr (.inl ⟨m, 1, hm, le_refl 1, ha, h256, by rw [fetchInstr, hd, h256]⟩)
    · obtain ⟨hgt, rfl⟩ := instrByte_error.mp h2
      have hle := (instrByte_ok.mp h1).1
      simp only [Config.addrMax] at hgt hle
      have h256 : s.pc.toNat + 2 = 256 := by omega
      exact .inr (.inl ⟨m, 2, hm, by omega, ha, h256, by rw [fetchInstr, hd, h256]⟩)
    · exact .inr (.inr ⟨i, hm, hd, fun k hlt => instrByte_ok.mp (hk k hlt)⟩)

/-! ## The cycle -/

/-- A next state comes from Running alone: through an error of the fetch, or through the fetched instruction's handler. -/
theorem stepWith_next {code : Mnemonic → Byte} {s t : State} (h : stepWith code s = .next t) :
    s.status = .running ∧
    ((∃ e, fetchInstr code s = .error e ∧ t = s.setStatus (.error e)) ∨
     (∃ i, fetchInstr code s = .ok i ∧ exec i s = .next t)) := by
  unfold stepWith at h
  rcases hs : s.status with _ | _ | _ | e <;> rw [hs] at h
  · cases h
  · refine ⟨rfl, ?_⟩
    rcases hf : fetchInstr code s with e | i <;> rw [hf] at h
    · exact .inl ⟨e, rfl, (raise_next _ _ _).mp h⟩
    · exact .inr ⟨i, rfl, h⟩
  · cases h
  · cases h

theorem stepWith_of_fetch_ok {code : Mnemonic → Byte} {s : State} {i : Instr} (hs : s.status = .running)
    (hf : fetchInstr code s = .ok i) : stepWith code s = exec i s := by
  simp [stepWith, hs, hf]

theorem stepWith_of_fetch_error {code : Mnemonic → Byte} {s : State} {e : ErrorReport} (hs : s.status = .running)
    (hf : fetchInstr code s = .error e) : stepWith code s = raise e s := by
  simp [stepWith, hs, hf]

end Sys2Proof.Machine
end

