-- ==== Sys2Proof/Laws/PerInstr.lean ====
section
/-! SUPPORT. Statements about every instruction as syntax, one lemma per constructor. -/

namespace Sys2Proof.Laws

/-- An instruction has as many operand bytes as the arity of its opcode (spec/30_encoding.md R63, R65), and its register
operands are among them. -/
def OperandBytes.Statement (i : Instr) : Prop :=
  i.operands.length = arity i.mnemonic ∧ ∀ b ∈ i.registerOperands, b ∈ i.operands

theorem OperandBytes.hlt : OperandBytes.Statement .hlt := by
  simp [OperandBytes.Statement, Instr.operands, Instr.registerOperands, Instr.mnemonic, arity]

theorem OperandBytes.ldi (rn val : Byte) : OperandBytes.Statement (.ldi rn val) := by
  simp [OperandBytes.Statement, Instr.operands, Instr.registerOperands, Instr.mnemonic, arity]

theorem OperandBytes.prn (rn : Byte) : OperandBytes.Statement (.prn rn) := by
  simp [OperandBytes.Statement, Instr.operands, Instr.registerOperands, Instr.mnemonic, arity]

theorem OperandBytes.mul (ra rb : Byte) : OperandBytes.Statement (.mul ra rb) := by
  simp [OperandBytes.Statement, Instr.operands, Instr.registerOperands, Instr.mnemonic, arity]

theorem OperandBytes.add (ra rb : Byte) : OperandBytes.Statement (.add ra rb) := by
  simp [OperandBytes.Statement, Instr.operands, Instr.registerOperands, Instr.mnemonic, arity]

theorem OperandBytes.push (rn : Byte) : OperandBytes.Statement (.push rn) := by
  simp [OperandBytes.Statement, Instr.operands, Instr.registerOperands, Instr.mnemonic, arity]

theorem OperandBytes.pop (rn : Byte) : OperandBytes.Statement (.pop rn) := by
  simp [OperandBytes.Statement, Instr.operands, Instr.registerOperands, Instr.mnemonic, arity]

theorem OperandBytes.call (rn : Byte) : OperandBytes.Statement (.call rn) := by
  simp [OperandBytes.Statement, Instr.operands, Instr.registerOperands, Instr.mnemonic, arity]

theorem OperandBytes.ret : OperandBytes.Statement .ret := by
  simp [OperandBytes.Statement, Instr.operands, Instr.registerOperands, Instr.mnemonic, arity]

end Sys2Proof.Laws
end

