-- ==== Sys2Proof/Laws/Step.lean ====
section
/-! SUPPORT. What any instruction and any step can do, said once over all instructions, and the two views of the bytes at
`PC`: memory, as the step reads it, and a list, as the decoder does. -/

namespace Sys2Proof

theorem Instr.operands_length (i : Instr) : i.operands.length = arity i.mnemonic := by
  cases i with
  | hlt => exact Laws.OperandBytes.hlt.1
  | ldi rn val => exact (Laws.OperandBytes.ldi rn val).1
  | prn rn => exact (Laws.OperandBytes.prn rn).1
  | mul ra rb => exact (Laws.OperandBytes.mul ra rb).1
  | add ra rb => exact (Laws.OperandBytes.add ra rb).1
  | push rn => exact (Laws.OperandBytes.push rn).1
  | pop rn => exact (Laws.OperandBytes.pop rn).1
  | call rn => exact (Laws.OperandBytes.call rn).1
  | ret => exact Laws.OperandBytes.ret.1

/-- An instruction is its mnemonic and its operand bytes. -/
theorem Instr.ext_operands {i j : Instr} (hm : i.mnemonic = j.mnemonic) (ho : i.operands = j.operands) : i = j := by
  cases i <;> cases j <;> simp_all [Instr.mnemonic, Instr.operands]

end Sys2Proof

namespace Sys2Proof.Machine

/-- The fields an advance leaves as they were; the status is kept or becomes an OutOfBounds error. -/
theorem advance_fields {n : Nat} {u t : State} (h : advance n u = .next t) :
    t.regs = u.regs ∧ t.mem = u.mem ∧ t.sp = u.sp ∧ t.out = u.out ∧
    (t.status = u.status ∨ ∃ info, t.status = .error (.outOfBounds info)) := by
  rcases advance_cases _ _ _ h with ⟨-, -, ht⟩ | ⟨-, rfl⟩
  · rw [ht]
    exact ⟨rfl, rfl, rfl, rfl, .inl rfl⟩
  · exact ⟨rfl, rfl, rfl, rfl, .inr ⟨_, rfl⟩⟩

/-- Everything an instruction can do: raise, with its cause, and change nothing else; halt; end with the sequential advance
from a state that differs from `s` as its kind allows; call; or return. -/
theorem exec_cases (i : Instr) (s : State) :
    (∃ e, exec i s = raise e s ∧
      ((∃ b ∈ i.registerOperands, ¬ b.toNat < Config.nReg ∧ e = .outOfBounds (.regIndex b)) ∨
       ((∃ b, i = .push b ∨ i = .call b) ∧ s.sp = 0 ∧ e = .outOfBounds .stackOverflow) ∨
       ((i = .ret ∨ ∃ b, i = .pop b) ∧ spInit.toNat ≤ s.sp.toNat ∧ e = .outOfBounds .stackUnderflow) ∨
       (∃ b, i = .call b ∧ Config.addrMax < s.pc.toNat + 2 ∧ e = .outOfBounds (.memAddr (s.pc.toNat + 2))))) ∨
    (i = .hlt ∧ exec i s = .next (s.setStatus .halted)) ∨
    (i.isSequential = true ∧ i.wellFormed = true ∧
      ∃ u, exec i s = advance i.length u ∧ u.pc = s.pc ∧ u.status = s.status ∧
      ((u.sp = s.sp ∧ u.mem = s.mem ∧
          ((∃ b n, i = .prn b ∧ b.toNat = n.val ∧ u.out = s.out ++ [s.readReg n]) ∨ u.out = s.out)) ∨
       (u.out = s.out ∧ s.sp ≠ 0 ∧ u.sp = s.sp - 1 ∧ ∃ b v, i = .push b ∧ u.mem = s.mem.set (s.sp - 1).toNat v) ∨
       (u.out = s.out ∧ s.sp.toNat < spInit.toNat ∧ u.sp.toNat = s.sp.toNat + 1 ∧ u.mem = s.mem ∧ ∃ b, i = .pop b))) ∨
    (∃ b n v, i = .call b ∧ b.toNat = n.val ∧ s.sp ≠ 0 ∧
      exec i s = .next (((s.setSp (s.sp - 1)).setMem (s.mem.set (s.sp - 1).toNat v)).setPc (s.readReg n))) ∨
    (i = .ret ∧ s.sp.toNat < spInit.toNat ∧ (s.sp + 1).toNat = s.sp.toNat + 1 ∧
      exec i s = .next ((s.setSp (s.sp + 1)).setPc (s.mem.get s.sp.toNat))) := by
  have isReg : ∀ (b : Byte) (n : Fin Config.nReg), n.val = b.toNat → isRegister b = true := fun b n h => by
    have := n.isLt
    simp only [isRegister, decide_eq_true_eq]
    omega
  cases i with
  | hlt => exact .inr (.inl ⟨rfl, rfl⟩)
  | ldi b v =>
    rcases execLdi_cases b v s with ⟨h, he⟩ | ⟨n, hn, he⟩
    · exact .inl ⟨_, he, .inl ⟨b, by simp [Instr.registerOperands], h, rfl⟩⟩
    · exact .inr (.inr (.inl ⟨rfl, by simp [Instr.wellFormed, Instr.registerOperands, isReg b n hn], _, he, rfl, rfl,
        .inl ⟨rfl, rfl, .inr rfl⟩⟩))
  | prn b =>
    rcases execPrn_cases b s with ⟨h, he⟩ | ⟨n, hn, he⟩
    · exact .inl ⟨_, he, .inl ⟨b, by simp [Instr.registerOperands], h, rfl⟩⟩
    · exact .inr (.inr (.inl ⟨rfl, by simp [Instr.wellFormed, Instr.registerOperands, isReg b n hn], _, he, rfl, rfl,
        .inl ⟨rfl, rfl, .inl ⟨b, n, rfl, hn.symm, rfl⟩⟩⟩))
  | mul b c =>
    rcases aluToRegister_cases .mul b c s with ⟨h, he⟩ | ⟨_, h, he⟩ | ⟨n, m, hn, hm, he⟩
    · exact .inl ⟨_, he, .inl ⟨b, by simp [Instr.registerOperands], h, rfl⟩⟩
    · exact .inl ⟨_, he, .inl ⟨c, by simp [Instr.registerOperands], h, rfl⟩⟩
    · exact .inr (.inr (.inl ⟨rfl, by simp [Instr.wellFormed, Instr.registerOperands, isReg b n hn, isReg c m hm], _,
        he, rfl, rfl, .inl ⟨rfl, rfl, .inr rfl⟩⟩))
  | add b c =>
    rcases aluToRegister_cases .add b c s with ⟨h, he⟩ | ⟨_, h, he⟩ | ⟨n, m, hn, hm, he⟩
    · exact .inl ⟨_, he, .inl ⟨b, by simp [Instr.registerOperands], h, rfl⟩⟩
    · exact .inl ⟨_, he, .inl ⟨c, by simp [Instr.registerOperands], h, rfl⟩⟩
    · exact .inr (.inr (.inl ⟨rfl, by simp [Instr.wellFormed, Instr.registerOperands, isReg b n hn, isReg c m hm], _,
        he, rfl, rfl, .inl ⟨rfl, rfl, .inr rfl⟩⟩))
  | push b =>
    rcases execPush_cases b s with ⟨h, he⟩ | ⟨_, h, he⟩ | ⟨n, hn, h, he⟩
    · exact .inl ⟨_, he, .inl ⟨b, by simp [Instr.registerOperands], h, rfl⟩⟩
    · exact .inl ⟨_, he, .inr (.inl ⟨⟨b, .inl rfl⟩, h, rfl⟩)⟩
    · exact .inr (.inr (.inl ⟨rfl, by simp [Instr.wellFormed, Instr.registerOperands, isReg b n hn], _, he, rfl, rfl,
        .inr (.inl ⟨rfl, h, rfl, b, _, rfl, rfl⟩)⟩))
  | pop b =>
    rcases execPop_cases b s with ⟨h, he⟩ | ⟨_, h, he⟩ | ⟨n, hn, h, h1, he⟩
    · exact .inl ⟨_, he, .inl ⟨b, by simp [Instr.registerOperands], h, rfl⟩⟩
    · exact .inl ⟨_, he, .inr (.inr (.inl ⟨.inr ⟨b, rfl⟩, h, rfl⟩))⟩
    · exact .inr (.inr (.inl ⟨rfl, by simp [Instr.wellFormed, Instr.registerOperands, isReg b n hn], _, he, rfl, rfl,
        .inr (.inr ⟨rfl, h, h1, rfl, b, rfl⟩)⟩))
  | call b =>
    rcases execCall_cases b s with ⟨h, he⟩ | ⟨_, h, he⟩ | ⟨_, _, h, he⟩ | ⟨n, r, hn, h, _, _, he⟩
    · exact .inl ⟨_, he, .inl ⟨b, by simp [Instr.registerOperands], h, rfl⟩⟩
    · exact .inl ⟨_, he, .inr (.inl ⟨⟨b, .inr rfl⟩, h, rfl⟩)⟩
    · exact .inl ⟨_, he, .inr (.inr (.inr ⟨b, rfl, h, rfl⟩))⟩
    · exact .inr (.inr (.inr (.inl ⟨b, n, r, rfl, hn.symm, h, he⟩)))
  | ret =>
    rcases execRet_cases s with ⟨h, he⟩ | ⟨h, h1, he⟩
    · exact .inl ⟨_, he, .inr (.inr (.inl ⟨.inl rfl, h, rfl⟩))⟩
    · exact .inr (.inr (.inr (.inr ⟨rfl, h, h1, he⟩)))

/-- A fetched instruction lies whole within memory. -/
theorem fetchInstr_ok_bound {code : Mnemonic → Byte} {s : State} {i : Instr} (h : fetchInstr code s = .ok i) :
    s.pc.toNat + i.operands.length ≤ 255 := by
  rcases fetchInstr_cases code s with ⟨-, he⟩ | ⟨m, k, -, -, -, -, he⟩ | ⟨j, -, he, hk⟩
  · rw [he] at h
    cases h
  · rw [he] at h
    cases h
  · rw [he] at h
    cases h
    rcases Nat.eq_zero_or_pos i.operands.length with h0 | h0
    · have := s.pc.isLt
      omega
    · have := (hk (i.operands.length - 1) (by omega)).1
      simp only [Config.addrMax] at this
      omega

/-- What a step that answers a next state did: it met a byte that is no opcode, or an operand past the top, or it ran the
fetched instruction. -/
theorem stepWith_cases {code : Mnemonic → Byte} {s t : State} (h : stepWith code s = .next t) :
    s.status = .running ∧
    ((mnemonicOf code (s.mem.get s.pc.toNat) = none ∧
        t = s.setStatus (.error (.unrecognizedOpcode (s.mem.get s.pc.toNat)))) ∨
     ((∃ m k, mnemonicOf code (s.mem.get s.pc.toNat) = some m ∧ 1 ≤ k ∧ k ≤ arity m ∧ s.pc.toNat + k = 256) ∧
        t = s.setStatus (.error (.outOfBounds (.memAddr 256)))) ∨
     ∃ i, fetchInstr code s = .ok i ∧ exec i s = .next t) := by
  obtain ⟨hs, ⟨e, hf, ht⟩ | h⟩ := stepWith_next h
  · refine ⟨hs, ?_⟩
    rcases fetchInstr_cases code s with ⟨h0, he⟩ | ⟨m, k, hm, k1, k2, k3, he⟩ | ⟨i, _, he, _⟩
    · rw [he] at hf
      cases hf
      exact .inl ⟨h0, ht⟩
    · rw [he] at hf
      cases hf
      exact .inr (.inl ⟨⟨m, k, hm, k1, k2, k3⟩, ht⟩)
    · rw [he] at hf
      cases hf
  · exact ⟨hs, .inr (.inr h)⟩

/-- The bytes from `PC` up, as a list: byte `k` is the memory byte at `PC + k`. -/
theorem byteOf_bytesFromPc (s : State) (k : Nat) (h : s.pc.toNat + k ≤ 255) :
    byteOf s.bytesFromPc k = .ok (s.mem.get (s.pc.toNat + k)) := by
  have : k < Config.memSize - s.pc.toNat := by simp only [Config.memSize]; omega
  simp [byteOf, State.bytesFromPc, this]

/-- The list ends where memory does. -/
theorem byteOf_bytesFromPc_past (s : State) (k : Nat) (h : 255 < s.pc.toNat + k) :
    byteOf s.bytesFromPc k = .error (.missingByte k) := by
  have : ¬ k < Config.memSize - s.pc.toNat := by simp only [Config.memSize]; omega
  simp [byteOf, State.bytesFromPc, this]

end Sys2Proof.Machine
end

