-- ==== Sys2Proof/Tests/Slice0.lean ====
section
/-! SUPPORT. The model's own tests: ill-formed terms, words written out from spec/30_encoding.md, single steps whose results
are the rows of spec/95_test_vectors.md section 2, and for each statement with hypotheses a witness that meets them. -/

namespace Sys2Proof.Tests

open Sys2Proof.Machine

/-! ## WellFormed refuses every register operand above 7 -/

theorem test_illformed_ldi : (Instr.ldi 8 0).wellFormed = false := by decide
theorem test_illformed_prn : (Instr.prn 8).wellFormed = false := by decide
theorem test_illformed_mul_first : (Instr.mul 8 0).wellFormed = false := by decide
theorem test_illformed_mul_second : (Instr.mul 0 8).wellFormed = false := by decide
theorem test_illformed_add_first : (Instr.add 255 0).wellFormed = false := by decide
theorem test_illformed_add_second : (Instr.add 0 255).wellFormed = false := by decide
theorem test_illformed_push : (Instr.push 8).wellFormed = false := by decide
theorem test_illformed_pop : (Instr.pop 8).wellFormed = false := by decide
theorem test_illformed_call : (Instr.call 8).wellFormed = false := by decide
theorem test_wellformed_ldi_any_immediate : (Instr.ldi 7 255).wellFormed = true := by decide

/-! ## Decoding: the bytes of each constructor, from the opcode map and formats (R65, R68) -/

theorem test_decode_hlt : decode [0b00000001] = .ok (.hlt, []) := by decide
theorem test_decode_ldi : decode [0b10000010, 0b00000111, 0b11111111] = .ok (.ldi 7 255, []) := by decide
theorem test_decode_prn : decode [0b01000111, 0b00000011] = .ok (.prn 3, []) := by decide
theorem test_decode_mul : decode [0b10100010, 0b00000001, 0b00000010] = .ok (.mul 1 2, []) := by decide
theorem test_decode_add : decode [0b10100000, 0b00000101, 0b00000110] = .ok (.add 5 6, []) := by decide
theorem test_decode_push : decode [0b01000101, 0b00000010] = .ok (.push 2, []) := by decide
theorem test_decode_pop : decode [0b01000110, 0b00000100] = .ok (.pop 4, []) := by decide
theorem test_decode_call : decode [0b01010000, 0b00000001] = .ok (.call 1, []) := by decide
theorem test_decode_ret : decode [0b00010001] = .ok (.ret, []) := by decide

theorem test_decode_unrecognized : decode [0x83, 0, 0] = .error (.unrecognizedOpcode 0x83) := by decide
theorem test_decode_second_operand_missing : decode [0xA0, 0] = .error (.missingByte 2) := by decide
theorem test_decode_nothing : decode [] = .error (.missingByte 0) := by decide

/-- The table numbers `b0` as bits 7..0, `b1` as bits 15..8, `b2` as bits 23..16. -/
theorem test_table_word_ldi : decodeTableWord 24 0x080082 = some (.ldi 0 8) := by decide
/-- A word given only the opcode's bits has operand bytes of zeros. -/
theorem test_table_word_short : decodeTableWord 8 0xA2 = some (.mul 0 0) := by decide

/-! ## Single steps -/

/-- A core that runs at `pc` with these bytes there, every other byte and register 0, the stack empty. -/
def runningAt (pc : Byte) (bytes : List Byte) : State :=
  { State.reset with pc := pc, mem := Memory.place [] pc.toNat bytes, status := .running }

/-- What `f` sees of the state after one step. -/
def after {α : Type} (s : State) (f : State → α) : Option α :=
  match step s with
  | .next t => some (f t)
  | .fault _ => none
  | .refused _ => none

theorem test_fetch_unrecognized :
    after (runningAt 200 [0xFF]) (fun t => (t.status, t.pc)) = some (.error (.unrecognizedOpcode 0xFF), 200) := by decide
theorem test_fetch_operand_past_top :
    after (runningAt 255 [0x82]) (fun t => (t.status, t.pc)) = some (.error (.outOfBounds (.memAddr 256)), 255) := by
  decide
theorem test_hlt_at_top : after (runningAt 255 [0x01]) (fun t => (t.status, t.pc)) = some (.halted, 255) := by decide
theorem test_prn_value : after ((runningAt 0 [0x47, 0x07]).setReg 7 255) (fun t => (t.out, t.pc)) = some ([255], 2) := by
  decide
theorem test_prn_at_254 :
    after ((runningAt 254 [0x47, 0x00]).setReg 0 9) (fun t => (t.out, t.status, t.pc)) =
      some ([9], .error (.outOfBounds (.memAddr 256)), 254) := by decide
theorem test_ldi_bad_register :
    after (runningAt 0 [0x82, 0x08, 0x05]) (fun t => (t.status, t.pc)) =
      some (.error (.outOfBounds (.regIndex 8)), 0) := by decide
theorem test_ldi_at_253 :
    after (runningAt 253 [0x82, 0x01, 0x2A]) (fun t => (t.readReg 1, t.status, t.pc)) =
      some (42, .error (.outOfBounds (.memAddr 256)), 253) := by decide
theorem test_mul_wraps :
    after (((runningAt 0 [0xA2, 0x00, 0x01]).setReg 0 255).setReg 1 255) (fun t => (t.readReg 0, t.readReg 1, t.pc)) =
      some (1, 255, 3) := by decide
theorem test_mul_same_register :
    after ((runningAt 0 [0xA2, 0x02, 0x02]).setReg 2 3) (fun t => (t.readReg 2, t.pc)) = some (9, 3) := by decide
theorem test_add_wraps :
    after (((runningAt 0 [0xA0, 0x00, 0x01]).setReg 0 200).setReg 1 100) (fun t => (t.readReg 0, t.readReg 1)) =
      some (44, 100) := by decide
theorem test_add_first_bad_register_reported :
    after (runningAt 0 [0xA0, 0x09, 0xC8]) (fun t => t.status) = some (.error (.outOfBounds (.regIndex 9))) := by decide
theorem test_push_first :
    after ((runningAt 3 [0x45, 0x00]).setReg 0 5) (fun t => (t.sp, t.mem.get 0xF2, t.pc)) = some (0xF2, 5, 5) := by
  decide
theorem test_push_full_stack :
    after (((runningAt 0x10 [0x45, 0x02]).setReg 2 0xAB).setSp 0) (fun t => (t.status, t.sp, t.mem.get 0xFF)) =
      some (.error (.outOfBounds .stackOverflow), 0, 0) := by decide
theorem test_pop_top :
    after (((runningAt 8 [0x46, 0x00]).setSp 0xF2).setMem (Memory.place [] 8 [0x46, 0x00] |>.set 0xF2 5))
      (fun t => (t.readReg 0, t.sp, t.pc)) = some (5, 0xF3, 10) := by decide
theorem test_pop_register_checked_before_stack :
    after (runningAt 8 [0x46, 0x08]) (fun t => t.status) = some (.error (.outOfBounds (.regIndex 8))) := by decide
theorem test_call_at_253 :
    after (runningAt 253 [0x50, 0x01]) (fun t => (t.pc, t.sp, t.mem.get 0xF2)) = some (0, 0xF2, 0xFF) := by decide
theorem test_call_at_254 :
    after ((runningAt 254 [0x50, 0x01]).setReg 1 16) (fun t => (t.status, t.pc, t.sp)) =
      some (.error (.outOfBounds (.memAddr 256)), 254, 0xF3) := by decide
theorem test_ret_at_255 :
    after (((runningAt 255 [0x11]).setSp 0xF2).setMem (Memory.place [] 255 [0x11] |>.set 0xF2 0x30))
      (fun t => (t.pc, t.sp)) = some (0x30, 0xF3) := by decide
theorem test_ret_empty_stack :
    after (runningAt 19 [0x11]) (fun t => (t.status, t.pc)) = some (.error (.outOfBounds .stackUnderflow), 19) := by
  decide

/-- The first instruction after reset, placed as a table word. -/
theorem test_first_instruction_after_reset :
    after (State.reset.withFetchWord 24 0x080082) (fun t => (t.readReg 0, t.pc, t.status)) = some (8, 3, .running) := by
  decide

/-- Writing 0, what an unlisted address reads, removes the entry. -/
theorem test_memory_canonical : Memory.set (Memory.set [] 5 7) 5 0 = [] := by decide

/-! ## Witnesses: each statement's hypotheses can be met, clause by clause at the ends of its ranges -/

/-- The state a handler's answer holds, for writing witnesses. -/
def stateOf (r : StepResult) : State :=
  match r with
  | .next t => t
  | .fault _ => State.reset
  | .refused _ => State.reset

/-- A core that has pushed one byte (7), with these bytes at `pc`. -/
def pushedAt (pc : Byte) (bytes : List Byte) : State :=
  { runningAt pc bytes with sp := 0xF2, mem := (Memory.place [] pc.toNat bytes).set 0xF2 7 }

theorem witness_LoadPortWritesOnlyInReady :
    State.reset.status = .ready ∧ (runningAt 0 []).status ≠ .ready := by decide
theorem witness_RunCommandLeavesOnlyReady :
    State.reset.status = .ready ∧ (runningAt 0 []).status ≠ .ready := by decide
theorem witness_LaunchPlacesImageAndStarts :
    (List.replicate 256 (1 : Byte)).length ≤ 256 ∧ 256 < (List.replicate 257 (1 : Byte)).length := by
  rw [List.length_replicate, List.length_replicate]
  decide
theorem witness_MemoryAccessChecksItsAddress : (255 : Nat) < 256 ∧ (255 : Nat) ≤ 255 ∧ (254 : Nat) ≠ 255 := by decide
theorem witness_LdiLoadsItsImmediate :
    (7 : Byte).toNat = (7 : Fin 8).val ∧ (runningAt 252 []).pc.toNat + 3 ≤ 255 ∧ (0 : Fin 8) ≠ 7 := by decide
theorem witness_MulMultipliesRegisters :
    (7 : Byte).toNat = (7 : Fin 8).val ∧ (0 : Byte).toNat = (0 : Fin 8).val ∧ (runningAt 252 []).pc.toNat + 3 ≤ 255 := by
  decide
theorem witness_AddAddsRegisters :
    (0 : Byte).toNat = (0 : Fin 8).val ∧ (7 : Byte).toNat = (7 : Fin 8).val ∧ (runningAt 252 []).pc.toNat + 3 ≤ 255 := by
  decide
theorem witness_PrnEmitsItsRegister :
    (7 : Byte).toNat = (7 : Fin 8).val ∧ (runningAt 253 []).pc.toNat + 2 ≤ 255 := by decide
theorem witness_PushStoresItsRegister :
    (7 : Byte).toNat = (7 : Fin 8).val ∧ ((runningAt 253 []).setSp 1).sp ≠ 0 ∧
      ((runningAt 253 []).setSp 1).pc.toNat + 2 ≤ 255 := by decide
theorem witness_PopLoadsTheTop :
    (7 : Byte).toNat = (7 : Fin 8).val ∧ (pushedAt 253 []).sp.toNat < spInit.toNat ∧
      (pushedAt 253 []).pc.toNat + 2 ≤ 255 := by decide
theorem witness_CallPushesReturnAddressAndJumps :
    (7 : Byte).toNat = (7 : Fin 8).val ∧ ((runningAt 253 []).setSp 1).sp ≠ 0 ∧
      ((runningAt 253 []).setSp 1).pc.toNat + 2 ≤ 255 := by decide
theorem witness_RetJumpsToTheTop :
    (pushedAt 255 []).sp.toNat < spInit.toNat ∧ ((pushedAt 255 []).setSp 0).sp.toNat < spInit.toNat := by decide
theorem witness_InvalidRegisterOperandRaises :
    (Instr.mul 0 8).registerOperands.find? (fun c => decide (7 < c.toNat)) = some 8 ∧
    (Instr.add 255 8).registerOperands.find? (fun c => decide (7 < c.toNat)) = some 255 := by decide
theorem witness_FullStackRaisesOverflow : (7 : Byte).toNat ≤ 7 ∧ ((runningAt 254 []).setSp 0).sp = 0 := by decide
theorem witness_EmptyStackRaisesUnderflow :
    (7 : Byte).toNat ≤ 7 ∧ spInit.toNat ≤ (runningAt 0 []).sp.toNat ∧ spInit.toNat ≤ ((runningAt 0 []).setSp 255).sp.toNat := by
  decide
theorem witness_CallReturnAddressPastTopRaises :
    (7 : Byte).toNat ≤ 7 ∧ (runningAt 254 []).sp ≠ 0 ∧ 255 < (runningAt 254 []).pc.toNat + 2 := by decide
theorem witness_AdvancePastTopKeepsEffectsAndRaises_ldi :
    (Instr.ldi 7 1).isSequential = true ∧ (Instr.ldi 7 1).wellFormed = true ∧
      (∀ b, Instr.ldi 7 1 = .push b → (runningAt 253 []).sp ≠ 0) ∧
      (∀ b, Instr.ldi 7 1 = .pop b → (runningAt 253 []).sp.toNat < spInit.toNat) ∧
      255 < (runningAt 253 []).pc.toNat + (1 + arity (Instr.ldi 7 1).mnemonic) :=
  ⟨rfl, rfl, fun _ h => (by cases h), fun _ h => (by cases h), (by decide)⟩
theorem witness_AdvancePastTopKeepsEffectsAndRaises_pop :
    (Instr.pop 7).isSequential = true ∧ (Instr.pop 7).wellFormed = true ∧
      (∀ b, Instr.pop 7 = .push b → (pushedAt 254 []).sp ≠ 0) ∧
      (∀ b, Instr.pop 7 = .pop b → (pushedAt 254 []).sp.toNat < spInit.toNat) ∧
      255 < (pushedAt 254 []).pc.toNat + (1 + arity (Instr.pop 7).mnemonic) :=
  ⟨rfl, rfl, fun _ h => (by cases h), fun _ _ => (by decide), (by decide)⟩
theorem witness_StepRunsTheDecodedInstruction :
    (runningAt 253 [0x82, 7, 255]).status = .running ∧
      decode (runningAt 253 [0x82, 7, 255]).bytesFromPc = .ok (.ldi 7 255, []) := by decide
theorem witness_UnrecognizedOpcodeEndsTheRun :
    Function.Injective defaultOpcode ∧ (runningAt 255 [0x02]).status = .running ∧
      (∀ m, defaultOpcode m ≠ (0x02 : Byte)) ∧ defaultOpcode .hlt = (0x01 : Byte) := by
  refine ⟨fun a b => ?_, rfl, fun m => ?_, rfl⟩
  · cases a <;> cases b <;> decide
  · cases m <;> decide
theorem witness_OperandsAreReadInOrderAndChecked_first :
    (runningAt 255 [0x47]).status = .running ∧ defaultOpcode .prn = (runningAt 255 [0x47]).mem.get 255 ∧
      1 ≤ arity .prn ∧ 255 < (runningAt 255 [0x47]).pc.toNat + 1 ∧
      ∀ j, j < 1 → (runningAt 255 [0x47]).pc.toNat + j ≤ 255 := by decide
theorem witness_OperandsAreReadInOrderAndChecked_second :
    (runningAt 254 [0x82, 1]).status = .running ∧ defaultOpcode .ldi = (runningAt 254 [0x82, 1]).mem.get 254 ∧
      2 ≤ arity .ldi ∧ 255 < (runningAt 254 [0x82, 1]).pc.toNat + 2 ∧
      ∀ j, j < 2 → (runningAt 254 [0x82, 1]).pc.toNat + j ≤ 255 := by decide
theorem witness_OperandsAreReadInOrderAndChecked_present :
    defaultOpcode .ldi = (runningAt 253 [0x82, 1, 2]).mem.get 253 ∧
      (runningAt 253 [0x82, 1, 2]).pc.toNat + arity .ldi ≤ 255 := by decide
theorem witness_FaultNamesWhyNoStepHappens :
    State.reset.status = .ready ∧ (State.reset.setStatus .halted).status = .halted ∧
      (State.reset.setStatus (.error .unsupportedOperation)).status = .error .unsupportedOperation := by decide

/-- A step the whole-machine statements speak of: PUSH with one byte of room left, from a state of the invariant. -/
theorem witness_step_from_the_invariant :
    ((runningAt 253 [0x45, 0]).setSp 1).inv = true ∧
      stepWith defaultOpcode ((runningAt 253 [0x45, 0]).setSp 1) =
        .next (stateOf (stepWith defaultOpcode ((runningAt 253 [0x45, 0]).setSp 1))) := ⟨by decide, rfl⟩
theorem witness_EveryStepKeepsTheInvariant :
    ∃ s t, s.inv = true ∧ stepWith defaultOpcode s = .next t := ⟨_, _, witness_step_from_the_invariant⟩
theorem witness_BytesFromSpInitUpAreNeverWritten :
    (∃ s t, s.inv = true ∧ stepWith defaultOpcode s = .next t) ∧ spInit.toNat ≤ 0xF3 :=
  ⟨⟨_, _, witness_step_from_the_invariant⟩, by decide⟩
theorem witness_ConstructionAndPortsMeetTheInvariant : State.reset.inv = true ∧ (runningAt 0 [1]).inv = true := by decide
theorem witness_ReachableStatesMeetTheInvariant : Reachable defaultOpcode (stateOf (stepWith defaultOpcode (runningAt 0 [0x01]))) :=
  .stepped (runningAt 0 [0x01]) _ (.launched [0x01] _ (by decide)) rfl
theorem witness_StatusTransitions :
    State.reset.status = .ready ∧ (stateOf (stepWith defaultOpcode (runningAt 0 [0x01]))).status = .halted ∧
      (stateOf (stepWith defaultOpcode (runningAt 0 [0x00]))).status = .error (.unrecognizedOpcode 0) ∧
      (State.reset.setStatus .halted).ended = true := by decide
theorem witness_OutputGrowsOnlyByPrn :
    stepWith defaultOpcode (runningAt 0 [0x47, 7]) = .next (stateOf (stepWith defaultOpcode (runningAt 0 [0x47, 7]))) := rfl
theorem witness_ErrorsArePrecise :
    (stateOf (stepWith defaultOpcode (runningAt 0 [0x47, 8]))).status = .error (.outOfBounds (.regIndex 8)) ∧
      (stateOf (stepWith defaultOpcode (runningAt 254 [0x47, 7]))).status = .error (.outOfBounds (.memAddr 256)) := by
  decide
theorem witness_EveryErrorHasItsCause :
    (stateOf (stepWith defaultOpcode (runningAt 0 [0x00]))).status = .error (.unrecognizedOpcode 0) ∧
      (stateOf (stepWith defaultOpcode (runningAt 255 [0x45]))).status = .error (.outOfBounds (.memAddr 256)) ∧
      (stateOf (stepWith defaultOpcode (runningAt 254 [0x50, 0]))).status = .error (.outOfBounds (.memAddr 256)) ∧
      (stateOf (stepWith defaultOpcode (runningAt 253 [0x82, 0, 0]))).status = .error (.outOfBounds (.memAddr 256)) ∧
      (stateOf (stepWith defaultOpcode (runningAt 0 [0x47, 8]))).status = .error (.outOfBounds (.regIndex 8)) ∧
      (stateOf (stepWith defaultOpcode ((runningAt 1 [0x45, 7]).setSp 0))).status = .error (.outOfBounds .stackOverflow) ∧
      (stateOf (stepWith defaultOpcode (runningAt 0 [0x11]))).status = .error (.outOfBounds .stackUnderflow) := by decide
theorem witness_ReportCarriesCodeAndInfo :
    (stateOf (stepWith defaultOpcode (runningAt 0 [0x00]))).status = .error (.unrecognizedOpcode 0) ∧
      (stateOf (stepWith defaultOpcode (runningAt 0 [0x11]))).status = .error (.outOfBounds .stackUnderflow) ∧
      (State.reset.setStatus (.error .unsupportedOperation)).status = .error .unsupportedOperation ∧
      State.reset.report = none := by decide
theorem witness_StackPointerMovesByOne :
    stepWith defaultOpcode (pushedAt 0 [0x11]) = .next (stateOf (stepWith defaultOpcode (pushedAt 0 [0x11]))) ∧
      (stateOf (stepWith defaultOpcode (pushedAt 0 [0x11]))).sp = spInit := ⟨rfl, by decide⟩
theorem witness_ProgramCounterAfterAStep :
    (stateOf (stepWith defaultOpcode (pushedAt 0 [0x11]))).status = .running ∧
      (stateOf (stepWith defaultOpcode (runningAt 252 [0x82, 0, 0]))).status = .running ∧
      (stateOf (stepWith defaultOpcode (runningAt 253 [0x50, 7]))).status = .running ∧
      (stateOf (stepWith defaultOpcode (runningAt 255 [0x01]))).status ≠ .running := by decide
theorem witness_RegistersReadAndWrittenAreThoseNamed :
    (∀ b ∈ (Instr.mul 0 1).registerOperands, b.toNat ≠ (7 : Fin 8).val) ∧
      exec (.mul 0 1) (runningAt 0 []) = .next (stateOf (exec (.mul 0 1) (runningAt 0 []))) ∧
      (7 : Byte).toNat = (7 : Fin 8).val ∧ (pushedAt 0 []).sp.toNat < spInit.toNat := ⟨by decide, rfl, by decide, by decide⟩
theorem witness_MemoryAccessesAreThoseOfTheTable :
    (pushedAt 9 [0x11]).status = .running ∧ fetchInstr defaultOpcode (pushedAt 9 [0x11]) = .ok .ret ∧
      (∀ k, k < 1 + arity Instr.ret.mnemonic →
        ((pushedAt 9 [0x11]).mem.set 0 5).get ((pushedAt 9 [0x11]).pc.toNat + k) =
          (pushedAt 9 [0x11]).mem.get ((pushedAt 9 [0x11]).pc.toNat + k)) ∧
      ((pushedAt 9 [0x11]).mem.set 0 5).get 0xF2 = (pushedAt 9 [0x11]).mem.get (pushedAt 9 [0x11]).sp.toNat := by decide
theorem witness_MemoryAccessesAreThoseOfTheTable_push :
    fetchInstr defaultOpcode (runningAt 254 [0x45, 7]) = .ok (.push 7) ∧
      ∀ k, k < 1 + arity (Instr.push 7).mnemonic →
        ((runningAt 254 [0x45, 7]).mem.set 0xF2 5).get ((runningAt 254 [0x45, 7]).pc.toNat + k) =
          (runningAt 254 [0x45, 7]).mem.get ((runningAt 254 [0x45, 7]).pc.toNat + k) := by decide
theorem witness_FrameOfRegisterWrites :
    exec (.ldi 7 1) (runningAt 252 []) = .next (stateOf (exec (.ldi 7 1) (runningAt 252 []))) ∧
      exec (.mul 7 1) (runningAt 253 []) = .next (stateOf (exec (.mul 7 1) (runningAt 253 []))) ∧
      exec (.add 7 8) (runningAt 0 []) = .next (stateOf (exec (.add 7 8) (runningAt 0 []))) := ⟨rfl, rfl, rfl⟩
theorem witness_FrameOfHaltAndPrint :
    exec .hlt (runningAt 255 []) = .next (stateOf (exec .hlt (runningAt 255 []))) ∧
      exec (.prn 7) (runningAt 253 []) = .next (stateOf (exec (.prn 7) (runningAt 253 []))) := ⟨rfl, rfl⟩
theorem witness_FrameOfStackLoads :
    exec (.pop 7) (pushedAt 253 []) = .next (stateOf (exec (.pop 7) (pushedAt 253 []))) ∧
      exec .ret (pushedAt 255 []) = .next (stateOf (exec .ret (pushedAt 255 []))) := ⟨rfl, rfl⟩
theorem witness_FrameOfStackStores :
    exec (.push 7) (runningAt 253 []) = .next (stateOf (exec (.push 7) (runningAt 253 []))) ∧
      exec (.call 7) (runningAt 253 []) = .next (stateOf (exec (.call 7) (runningAt 253 []))) ∧
      pushSlot ((runningAt 0 []).setSp 1) = .ok 0 ∧
      pushSlot ((runningAt 0 []).setSp 0) = .error (.outOfBounds .stackOverflow) := ⟨rfl, rfl, rfl, rfl⟩
theorem witness_PushThenPopRestores :
    (7 : Byte).toNat = (7 : Fin 8).val ∧ (runningAt 251 []).sp ≠ 0 ∧ (runningAt 251 []).sp.toNat ≤ spInit.toNat ∧
      (runningAt 251 []).pc.toNat + 4 ≤ 255 := by decide
theorem witness_RetResumesAfterTheCall :
    (7 : Byte).toNat ≤ 7 ∧ (runningAt 253 []).pc.toNat ≤ 253 ∧ (runningAt 253 []).sp ≠ 0 ∧
      (runningAt 253 []).sp.toNat ≤ spInit.toNat ∧
      (stateOf (exec (.call 7) (runningAt 253 []))).sp.toNat + 1 = (runningAt 253 []).sp.toNat := by decide
theorem witness_StackIsLastInFirstOut :
    (7 : Byte).toNat = (7 : Fin 8).val ∧ [(0 : Fin 8), 1].length ≤ ((runningAt 247 []).setSp 2).sp.toNat ∧
      ((runningAt 247 []).setSp 2).sp.toNat ≤ spInit.toNat ∧
      ((runningAt 247 []).setSp 2).pc.toNat + 4 * [(0 : Fin 8), 1].length ≤ 255 := by decide
theorem witness_NextFetchSeesTheWrittenByte_push :
    (3 : Byte).toNat = (3 : Fin 8).val ∧ (runningAt 0xF0 []).sp ≠ 0 ∧
      exec (.push 3) (runningAt 0xF0 []) = .next (stateOf (exec (.push 3) (runningAt 0xF0 []))) ∧
      (stateOf (exec (.push 3) (runningAt 0xF0 []))).status = (runningAt 0xF0 []).status ∧
      (stateOf (exec (.push 3) (runningAt 0xF0 []))).pc.toNat + 0 + 1 = (runningAt 0xF0 []).sp.toNat :=
  ⟨by decide, by decide, rfl, by decide, by decide⟩
theorem witness_NextFetchSeesTheWrittenByte_call :
    (3 : Byte).toNat ≤ 7 ∧ ((runningAt 253 []).setReg 3 0xF2).sp ≠ 0 ∧
      ((runningAt 253 []).setReg 3 0xF2).pc.toNat + 2 ≤ 255 ∧
      exec (.call 3) ((runningAt 253 []).setReg 3 0xF2) =
        .next (stateOf (exec (.call 3) ((runningAt 253 []).setReg 3 0xF2))) ∧
      (stateOf (exec (.call 3) ((runningAt 253 []).setReg 3 0xF2))).pc.toNat + 0 + 1 =
        ((runningAt 253 []).setReg 3 0xF2).sp.toNat :=
  ⟨by decide, by decide, by decide, rfl, by decide⟩
theorem witness_EndedRunIsFinal : (runLoop defaultOpcode 1 (runningAt 0 [0x01])).ended = true := by decide
theorem witness_DecodeOfEncodeIsTheInstruction : Function.Injective defaultOpcode :=
  witness_UnrecognizedOpcodeEndsTheRun.1
theorem witness_EncodeOfDecodeIsTheBytes : decodeWith defaultOpcode [0xA0, 8, 255, 1] = .ok (.add 8 255, [1]) := by
  decide
theorem witness_OpcodeAloneDecidesTheLength :
    decodeWith defaultOpcode (0x82 :: [1, 2, 3]) = .ok (.ldi 1 2, [3]) ∧
      decodeWith defaultOpcode (0x82 :: [255, 0]) = .ok (.ldi 255 0, []) := by decide

end Sys2Proof.Tests
end

/-! The state at construction and the output list (spec/10_state.md R30, R34). -/

namespace Sys2Proof.Machine

/-- Settles O1: the parameter `spInit` and the reset state, evaluated. -/
theorem resetStackPointerIsF3 : Obligations.ResetStackPointerIsF3 :=
  ⟨rfl, rfl, rfl⟩

/-! ## The output list -/

/-- What an instruction does to the output: PRN of a valid register may append that register's value, and nothing else
changes it. -/
theorem exec_out {i : Instr} {s t : State} (h : exec i s = .next t) :
    t.out = s.out ∨
    ∃ (b : Byte) (n : Fin Config.nReg), i = .prn b ∧ b.toNat = n.val ∧ t.out = s.out ++ [s.readReg n] := by
  rcases exec_cases i s with
    ⟨e, he, -⟩ | ⟨-, he⟩ | ⟨-, -, u, he, -, -, hu⟩ | ⟨_, _, _, -, -, -, he⟩ | ⟨-, -, -, he⟩ <;> rw [he] at h
  · obtain rfl := (raise_next _ _ _).mp h
    exact .inl rfl
  · obtain rfl := Host.Outcome.next.inj h
    exact .inl rfl
  · -- the advance keeps the output of the state the handler left
    obtain ⟨-, -, -, htu, -⟩ := advance_fields h
    rw [htu]
    rcases hu with ⟨-, -, hprn | hout⟩ | ⟨hout, -⟩ | ⟨hout, -⟩
    · exact .inr hprn
    · exact .inl hout
    · exact .inl hout
    · exact .inl hout
  · obtain rfl := Host.Outcome.next.inj h
    exact .inl rfl
  · obtain rfl := Host.Outcome.next.inj h
    exact .inl rfl

/-- What a step does to the output: only a fetched PRN appends to it, and an error of the fetch leaves it. -/
theorem stepWith_out {code : Mnemonic → Byte} {s t : State} (h : stepWith code s = .next t) :
    t.out = s.out ∨
    ∃ (b : Byte) (n : Fin Config.nReg), fetchInstr code s = .ok (.prn b) ∧ b.toNat = n.val ∧
      t.out = s.out ++ [s.readReg n] := by
  obtain ⟨-, ⟨e, -, rfl⟩ | ⟨i, hf, hx⟩⟩ := stepWith_next h
  · exact .inl rfl
  · rcases exec_out hx with hout | ⟨b, n, rfl, hb, hout⟩
    · exact .inl hout
    · exact .inr ⟨b, n, hf, hb, hout⟩

@[simp] theorem State.loadPort_out (s : State) (a v : Byte) : (s.loadPort a v).out = s.out := by
  unfold State.loadPort
  split <;> rfl

@[simp] theorem State.run_out (s : State) : s.run.out = s.out := by
  unfold State.run
  split <;> rfl

/-- Settles O32: from what a step does to the output (`stepWith_out`), and that neither port touches it. -/
theorem outputGrowsOnlyByPrn : Obligations.OutputGrowsOnlyByPrn :=
  ⟨rfl, fun _ _ _ h => stepWith_out h, fun s a v => ⟨s.loadPort_out a v, s.run_out⟩⟩

end Sys2Proof.Machine

/-! Memory accesses and their bounds check (spec/20_memory.md R46, R47). -/

namespace Sys2Proof.Machine

/-- Replacing one byte does not change the answer of a read at another address, be it in range or past 255. -/
theorem memRead_set_ne (m : Memory) {a b : Nat} (v : Byte) (hb : b ≠ a) : memRead (m.set a v) b = memRead m b := by
  rcases Nat.lt_or_ge Config.addrMax b with hgt | hle
  · rw [memRead_of_gt _ hgt, memRead_of_gt _ hgt]
  · rw [memRead_of_le _ hle, memRead_of_le _ hle, Memory.get_set_ne m v hb]

/-- A read within range returns the byte last written at its address. -/
theorem memRead_set_self (m : Memory) {a : Nat} (v : Byte) (ha : a ≤ Config.addrMax) :
    memRead (m.set a v) a = .ok v := by
  rw [memRead_of_le _ ha, Memory.get_set_self]

/-- Settles O8: from the two sides of the bounds check, and what a read answers after a byte is replaced. -/
theorem memoryAccessChecksItsAddress : Obligations.MemoryAccessChecksItsAddress := fun m a v =>
  ⟨fun hgt => ⟨memRead_of_gt m hgt, memWrite_of_gt m v hgt⟩,
    fun hle => ⟨memRead_of_le m hle,
      m.set a v, memWrite_of_le m v hle, memRead_set_self m v hle, fun _ hb => memRead_set_ne m v hb⟩⟩

end Sys2Proof.Machine

/-! What a successful decode says of the bytes (spec/30_encoding.md R63, R64). -/

namespace Sys2Proof

/-- A list's byte number `k` is answered exactly when the list has it. -/
theorem byteOf_ok {bytes : List Byte} {k : Nat} {b : Byte} : byteOf bytes k = .ok b ↔ bytes[k]? = some b := by
  unfold byteOf
  split <;> simp [*]

/-- An instruction's length counts the opcode and the operand bytes. -/
theorem Instr.length_eq (i : Instr) : i.length = i.operands.length + 1 := by
  rw [Instr.length, i.operands_length, Nat.add_comm]

/-- The success case of `decodeFrom_cases`: byte 0 looks up the mnemonic, and the bytes after it are the operands. -/
theorem decodeFrom_ok {ε : Type} {code : Mnemonic → Byte} {bad : Byte → ε} {rd : Nat → Except ε Byte} {i : Instr}
    (h : decodeFrom code bad rd = .ok i) :
    ∃ op, rd 0 = .ok op ∧ mnemonicOf code op = some i.mnemonic ∧
      ∀ k (hk : k < i.operands.length), rd (k + 1) = .ok i.operands[k] := by
  rcases decodeFrom_cases code bad rd with
    ⟨e, -, he⟩ | ⟨op, -, -, he⟩ | ⟨op, m, hop, hm, ⟨e, -, -, he⟩ | ⟨b, e, -, -, -, he⟩ | ⟨j, hj, rfl, hops⟩⟩
  case inr.inr.inr.inr =>
    obtain rfl := Except.ok.inj (hj.symm.trans h)
    exact ⟨op, hop, hm, hops⟩
  -- every other case answers an error
  all_goals exact nomatch he.symm.trans h

/-- A decode succeeds exactly when `decodeFrom` does, and the rest is what follows the instruction's length. -/
theorem decodeWith_ok {code : Mnemonic → Byte} {bytes rest : List Byte} {i : Instr} :
    decodeWith code bytes = .ok (i, rest) ↔
      decodeFrom code .unrecognizedOpcode (byteOf bytes) = .ok i ∧ bytes.drop i.length = rest := by
  unfold decodeWith
  rcases hd : decodeFrom code .unrecognizedOpcode (byteOf bytes) with e | j
  · simp [hd]
  · simp only [hd, Except.ok.injEq, Prod.mk.injEq]
    exact and_congr_right fun hj => by rw [hj]

/-- The bytes of a decoded instruction: the opcode looks up its mnemonic, and its operands come next, then the rest. -/
theorem decodeWith_cons_ok {code : Mnemonic → Byte} {op : Byte} {bs rest : List Byte} {i : Instr}
    (h : decodeWith code (op :: bs) = .ok (i, rest)) :
    mnemonicOf code op = some i.mnemonic ∧ bs = i.operands ++ rest := by
  obtain ⟨hdec, hrest⟩ := decodeWith_ok.mp h
  obtain ⟨op', hop, hlookup, hops⟩ := decodeFrom_ok hdec
  obtain rfl := Except.ok.inj hop
  have hprefix : i.operands <+: bs := List.prefix_iff_getElem?.mpr fun k hk => by
    simpa using byteOf_ok.mp (hops k hk)
  obtain ⟨tail, rfl⟩ := hprefix
  rw [i.length_eq, List.drop_succ_cons, List.drop_left] at hrest
  exact ⟨hlookup, by rw [hrest]⟩

/-- Settles O52: the lookup of the opcode byte fixes the mnemonic, and the operands it announces lie before the rest
(`decodeWith_cons_ok`). -/
theorem opcodeAloneDecidesTheLength : Obligations.OpcodeAloneDecidesTheLength := by
  refine ⟨fun code op bs rest i h => ?_, fun m => by cases m <;> rfl⟩
  obtain ⟨hlookup, rfl⟩ := decodeWith_cons_ok h
  refine ⟨hlookup, ?_, fun bs' rest' i' h' => ?_⟩
  · rw [List.length_cons, List.length_append, i.operands_length]
    omega
  · obtain ⟨hlookup', -⟩ := decodeWith_cons_ok h'
    exact Option.some.inj (hlookup'.symm.trans hlookup)

end Sys2Proof

/-! Fetch, operand bytes and the step (spec/40_dispatch.md R80 to R83). -/

namespace Sys2Proof.Machine

/-! ## What the fetch answers, by the lookup of the opcode -/

/-- R82: a byte that is no opcode is what the fetch reports. -/
theorem fetchInstr_of_lookup_none {code : Mnemonic → Byte} {s : State}
    (hnone : mnemonicOf code (s.mem.get s.pc.toNat) = none) :
    fetchInstr code s = .error (.unrecognizedOpcode (s.mem.get s.pc.toNat)) := by
  rcases fetchInstr_cases code s with ⟨-, hf⟩ | ⟨m, -, hm, -⟩ | ⟨i, hm, -⟩
  · exact hf
  · exact nomatch hnone.symm.trans hm
  · exact nomatch hnone.symm.trans hm

/-- R83: when the opcode's operands do not all fit in memory, the fetch reports the first address past the top. -/
theorem fetchInstr_of_operand_past_top {code : Mnemonic → Byte} {s : State} {m : Mnemonic}
    (hm : mnemonicOf code (s.mem.get s.pc.toNat) = some m) (hpast : 255 < s.pc.toNat + arity m) :
    fetchInstr code s = .error (.outOfBounds (.memAddr 256)) := by
  rcases fetchInstr_cases code s with ⟨hnone, -⟩ | ⟨_, _, -, -, -, -, hf⟩ | ⟨i, hi, hf, -⟩
  · exact nomatch hnone.symm.trans hm
  · exact hf
  · -- a fetched instruction lies whole within memory
    obtain rfl := Option.some.inj (hi.symm.trans hm)
    have hbound := fetchInstr_ok_bound hf
    rw [i.operands_length] at hbound
    omega

/-- R83: when the opcode's operands fit in memory, the fetch answers its instruction with those bytes in order. -/
theorem fetchInstr_of_operands_present {code : Mnemonic → Byte} {s : State} {m : Mnemonic}
    (hm : mnemonicOf code (s.mem.get s.pc.toNat) = some m) (hfit : s.pc.toNat + arity m ≤ 255) :
    ∃ i : Instr, fetchInstr code s = .ok i ∧ i.mnemonic = m ∧
      ∀ k (hk : k < i.operands.length), i.operands[k] = s.mem.get (s.pc.toNat + (k + 1)) := by
  rcases fetchInstr_cases code s with ⟨hnone, -⟩ | ⟨m', k, hm', -, hk, h256, -⟩ | ⟨i, hi, hf, hops⟩
  · exact nomatch hnone.symm.trans hm
  · -- operand `k` would lie at address 256
    obtain rfl := Option.some.inj (hm'.symm.trans hm)
    omega
  · exact ⟨i, hf, Option.some.inj (hi.symm.trans hm), fun k hk => (hops k hk).2⟩

/-! ## Totality while Running -/

/-- Every handler answers a next state, in every state. -/
theorem exec_completes (i : Instr) (s : State) : ∃ t, exec i s = .next t := by
  rcases exec_cases i s with
    ⟨e, he, -⟩ | ⟨-, he⟩ | ⟨-, -, u, he, -⟩ | ⟨_, _, _, -, -, -, he⟩ | ⟨-, -, -, he⟩
  · exact ⟨_, he⟩
  · exact ⟨_, he⟩
  · rw [he]
    exact advance_completes _ u
  · exact ⟨_, he⟩
  · exact ⟨_, he⟩

/-- A Running core always steps: an error of the fetch is itself a next state (R132), and so is all a handler answers. -/
theorem stepWith_completes (code : Mnemonic → Byte) {s : State} (hs : s.status = .running) :
    ∃ t, stepWith code s = .next t := by
  rcases hf : fetchInstr code s with e | i
  · exact ⟨_, stepWith_of_fetch_error hs hf⟩
  · rw [stepWith_of_fetch_ok hs hf]
    exact exec_completes i s

/-! ## The obligations -/

/-- Settles O25: the opcode selects its mnemonic, and the fetch's answer then turns on whether the operands fit below
address 256, where the first one past the top lies. -/
theorem operandsAreReadInOrderAndChecked : Obligations.OperandsAreReadInOrderAndChecked := by
  intro code s m hinj hs hop
  have hm : mnemonicOf code (s.mem.get s.pc.toNat) = some m := hop ▸ mnemonicOf_code hinj m
  refine ⟨fun k hk1 hka hpast hfirst => ?_, fun hfit => ?_⟩
  · have h256 : s.pc.toNat + k = 256 := by
      have hprev := hfirst (k - 1) (by omega)
      omega
    rw [h256]
    exact stepWith_of_fetch_error hs (fetchInstr_of_operand_past_top hm (by omega))
  · obtain ⟨i, hf, rfl, hops⟩ := fetchInstr_of_operands_present hm hfit
    exact ⟨i, hf, rfl, i.operands_length, hops⟩

/-- Settles O26: a next state comes from Running alone (`stepWith_next`), and Running always answers one. -/
theorem stepsHappenOnlyWhileRunning : Obligations.StepsHappenOnlyWhileRunning := fun code _ =>
  ⟨fun ⟨_, ht⟩ => (stepWith_next ht).1, stepWith_completes code⟩

/-- Settles O24: the opcode read is within memory; a byte no mnemonic has is not found in the table, and an injective map
gives back the mnemonic of its own byte. -/
theorem unrecognizedOpcodeEndsTheRun : Obligations.UnrecognizedOpcodeEndsTheRun := fun _ s hinj hs =>
  ⟨_, instrByte_zero s, rfl,
    fun hno => stepWith_of_fetch_error hs (fetchInstr_of_lookup_none (mnemonicOf_eq_none.mpr hno)),
    fun m hm => hm ▸ mnemonicOf_code hinj m⟩

end Sys2Proof.Machine

/-! The sum and the product of the ALU (spec/43_alu.md R104, R105). -/

namespace Sys2Proof.Machine

/-- Settles O6: each half is the law of its operation, which holds because the exact sum or product is narrowed to a byte. -/
theorem aluSumAndProductAreModulo256 : Obligations.AluSumAndProductAreModulo256 := fun a b =>
  ⟨aluApply_add_toNat a b, aluApply_mul_toNat a b⟩

end Sys2Proof.Machine

/-! Decoder and encoder invert each other, and the default opcode map (spec/30_encoding.md R63 to R70). -/

namespace Sys2Proof

theorem Instr.length_le (i : Instr) : i.length ≤ 3 :=
  have arity_le : ∀ m, arity m ≤ 2 := fun m => by cases m <;> decide
  Nat.add_le_add_left (arity_le i.mnemonic) 1

/-- The converse of `decodeFrom_ok`: a byte source that holds an instruction's bytes decodes to it. An answer of the decoder
has the mnemonic of byte 0 and the operand bytes of the source, and these two fix the instruction. -/
theorem decodeFrom_of_bytes {ε : Type} {code : Mnemonic → Byte} {bad : Byte → ε} {rd : Nat → Except ε Byte} {i : Instr}
    {op : Byte} (hop : rd 0 = .ok op) (hm : mnemonicOf code op = some i.mnemonic)
    (hops : ∀ k (hk : k < i.operands.length), rd (k + 1) = .ok i.operands[k]) : decodeFrom code bad rd = .ok i := by
  have hlen := i.operands_length
  rcases decodeFrom_cases code bad rd with ⟨e, h0, -⟩ | ⟨op', h0, hnone, -⟩ | ⟨op', m, h0, hsome, h⟩
  · exact nomatch hop.symm.trans h0
  · obtain rfl := Except.ok.inj (hop.symm.trans h0)
    exact nomatch hm.symm.trans hnone
  obtain rfl := Except.ok.inj (hop.symm.trans h0)
  obtain rfl := Option.some.inj (hm.symm.trans hsome)
  rcases h with ⟨e, ha, h1, -⟩ | ⟨_, e, ha, -, h2, -⟩ | ⟨j, hj, hjm, hjops⟩
  · exact nomatch (hops 0 (by omega)).symm.trans h1
  · exact nomatch (hops 1 (by omega)).symm.trans h2
  · have hoperands : j.operands = i.operands :=
      List.ext_getElem (by rw [j.operands_length, hjm, hlen]) fun k hkj hki =>
        Except.ok.inj ((hjops k hkj).symm.trans (hops k hki))
    rw [hj, Instr.ext_operands hjm hoperands]

/-- An instruction's bytes, whatever follows them, decode to it. -/
theorem decodeWith_encodeWith {code : Mnemonic → Byte} (hinj : Function.Injective code) (i : Instr) (rest : List Byte) :
    decodeWith code (encodeWith code i ++ rest) = .ok (i, rest) := by
  refine decodeWith_ok.mpr ⟨decodeFrom_of_bytes (byteOf_cons_zero _ _) (mnemonicOf_code hinj _) fun k hk => ?_, ?_⟩
  · exact byteOf_ok.mpr (by simp [encodeWith, List.getElem?_append_left hk])
  · rw [encodeWith, List.cons_append, i.length_eq, List.drop_succ_cons, List.drop_left]

/-- Settles O50: the general round trip, also at the default map, whose opcodes are distinct. -/
theorem decodeOfEncodeIsTheInstruction : Obligations.DecodeOfEncodeIsTheInstruction :=
  ⟨fun _ i rest hinj => decodeWith_encodeWith hinj i rest, decodeWith_encodeWith defaultOpcode_injective⟩

/-- Settles O51: byte 0 is the opcode of the mnemonic it looks up, and the operand bytes come next, before the rest. -/
theorem encodeOfDecodeIsTheBytes : Obligations.EncodeOfDecodeIsTheBytes := by
  intro code bytes i rest h
  cases bytes with
  | nil =>
    obtain ⟨op, hop, -⟩ := decodeFrom_ok (decodeWith_ok.mp h).1
    exact nomatch hop
  | cons op bs =>
    obtain ⟨hlookup, rfl⟩ := decodeWith_cons_ok h
    rw [encodeWith, code_of_mnemonicOf hlookup, List.cons_append]

/-- A byte is unrecognized under the default map exactly when it is none of the nine opcodes. -/
theorem mnemonicOf_defaultOpcode_eq_none (op : Byte) :
    mnemonicOf defaultOpcode op = none ↔
      op ∉ ([0x01, 0x82, 0x47, 0xA2, 0xA0, 0x45, 0x46, 0x50, 0x11] : List Byte) := by
  have hcodes : ([0x01, 0x82, 0x47, 0xA2, 0xA0, 0x45, 0x46, 0x50, 0x11] : List Byte) =
      Mnemonic.all.map defaultOpcode := rfl
  rw [mnemonicOf_eq_none, hcodes]
  simp [Mnemonic.mem_all]

/-- A list whose first byte is no opcode is rejected with that byte, whatever follows. -/
theorem decodeWith_of_lookup_none {code : Mnemonic → Byte} {op : Byte} (h : mnemonicOf code op = none) (rest : List Byte) :
    decodeWith code (op :: rest) = .error (.unrecognizedOpcode op) := by
  simp [decodeWith, decodeFrom, h]

/-- Settles O53: the nine bytes by evaluation, the others through the lookup over all mnemonics. -/
theorem defaultMapHasNineOpcodes : Obligations.DefaultMapHasNineOpcodes :=
  ⟨rfl, rfl, rfl, rfl, rfl, rfl, rfl, rfl, rfl, defaultOpcode_injective, mnemonicOf_defaultOpcode_eq_none,
    decodeWith_of_lookup_none ((mnemonicOf_defaultOpcode_eq_none _).mpr (by decide))⟩

/-- Settles O54: nine encoded instructions decode to themselves (`decodeWith_encodeWith`); a PUSH without its operand is
evaluated. -/
theorem sampleWordsDecode : Obligations.SampleWordsDecode :=
  have roundTrip := decodeWith_encodeWith defaultOpcode_injective
  ⟨roundTrip .hlt [], roundTrip (.ldi 0 8) [], roundTrip (.prn 3) [0xFF], roundTrip (.mul 0 1) [],
    roundTrip (.add 2 3) [], roundTrip (.push 4) [], roundTrip (.pop 5) [], roundTrip (.call 1) [],
    roundTrip .ret [0x01], by decide⟩

end Sys2Proof

namespace Sys2Proof.Machine

/-- A byte that the list of bytes from `PC` up answers is the memory's: the list ends where memory does. -/
theorem instrByte_of_byteOf_bytesFromPc {s : State} {k : Nat} {b : Byte} (h : byteOf s.bytesFromPc k = .ok b) :
    instrByte s k = .ok b := by
  rcases Nat.lt_or_ge 255 (s.pc.toNat + k) with hgt | hle
  · exact nomatch (byteOf_bytesFromPc_past s k hgt).symm.trans h
  · exact instrByte_ok.mpr ⟨hle, Except.ok.inj (h.symm.trans (byteOf_bytesFromPc s k hle))⟩

/-- When the bytes from `PC` up decode to an instruction, the fetch reads the same one. -/
theorem fetchInstr_of_decodeWith {code : Mnemonic → Byte} {s : State} {i : Instr} {rest : List Byte}
    (h : decodeWith code s.bytesFromPc = .ok (i, rest)) : fetchInstr code s = .ok i := by
  obtain ⟨op, hop, hm, hops⟩ := decodeFrom_ok (decodeWith_ok.mp h).1
  exact decodeFrom_of_bytes (instrByte_of_byteOf_bytesFromPc hop) hm fun k hk =>
    instrByte_of_byteOf_bytesFromPc (hops k hk)

/-- Settles O23: the fetch reads the decoded instruction (`fetchInstr_of_decodeWith`), and the cycle runs what it fetched. -/
theorem stepRunsTheDecodedInstruction : Obligations.StepRunsTheDecodedInstruction := fun _ _ _ hs =>
  ⟨fun _ h => stepWith_of_fetch_ok hs (fetchInstr_of_decodeWith h),
    fun h => stepWith_of_fetch_ok hs (fetchInstr_of_decodeWith h)⟩

/-- Settles O27: the cycle looks at the status first, and each status but Running has its own fault. -/
theorem faultNamesWhyNoStepHappens : Obligations.FaultNamesWhyNoStepHappens := fun code s =>
  ⟨fun hs => by simp [stepWith, hs], fun hs => by simp [stepWith, hs], fun e hs => by simp [stepWith, hs]⟩

end Sys2Proof.Machine

/-! One equation per case of each handler (spec/40_dispatch.md R84, spec/41_system.md to spec/45_subroutine.md), and what the
completing cases leave. -/

namespace Sys2Proof.Machine

/-- A register operand byte up to 7 names a register. -/
theorem register_of_le {b : Byte} (hb : b.toNat ≤ 7) : ∃ n : Fin Config.nReg, b.toNat = n.val :=
  ⟨⟨b.toNat, Nat.lt_succ_of_le hb⟩, rfl⟩

theorem State.readReg_setReg_ne (s : State) {n r : Fin Config.nReg} (v : Byte) (h : r ≠ n) :
    (s.setReg n v).readReg r = s.readReg r := by
  rw [State.readReg_setReg, if_neg h]

theorem toNat_ofNat_of_lt {a : Nat} (h : a < 256) : (BitVec.ofNat 8 a).toNat = a := by
  rw [BitVec.toNat_ofNat, Nat.mod_eq_of_lt h]

/-- An advance that stays below address 256 changes `PC` alone. -/
theorem advance_fits {n : Nat} {u : State} (h : u.pc.toNat + n ≤ 255) :
    ∃ p : Byte, advance n u = .next (u.setPc p) ∧ p.toNat = u.pc.toNat + n :=
  ⟨_, advance_of_le h, toNat_ofNat_of_lt (by omega)⟩

/-! ## Operands above 7, before every other check -/

theorem aluToRegister_of_invalid_operand {a b c : Byte} (h : [a, b].find? (fun d => decide (7 < d.toNat)) = some c)
    (op : AluOp) (s : State) : aluToRegister op a b s = raise (.outOfBounds (.regIndex c)) s := by
  by_cases ha : 7 < a.toNat
  · obtain rfl : a = c := by simpa [ha] using h
    simp [aluToRegister, regPair, reg_of_ge (Nat.not_lt.mpr ha)]
  · obtain ⟨hb, rfl⟩ : 7 < b.toNat ∧ b = c := by simpa [ha] using h
    simp [aluToRegister, regPair, reg_of_lt (Nat.lt_succ_of_le (Nat.not_lt.mp ha)), reg_of_ge (Nat.not_lt.mpr hb)]

/-- The first register operand above 7 is the one an instruction raises. -/
theorem exec_of_invalid_operand {i : Instr} {b : Byte}
    (h : i.registerOperands.find? (fun c => decide (7 < c.toNat)) = some b) (s : State) :
    exec i s = raise (.outOfBounds (.regIndex b)) s := by
  have single : ∀ {a : Byte}, [a].find? (fun c => decide (7 < c.toNat)) = some b →
      a = b ∧ reg b = .error (.outOfBounds (.regIndex b)) := fun {a} h => by
    obtain ⟨ha, rfl⟩ : 7 < a.toNat ∧ a = b := by simpa using h
    exact ⟨rfl, reg_of_ge (Nat.not_lt.mpr ha)⟩
  cases i with
  | hlt => exact nomatch h
  | ret => exact nomatch h
  | mul a c => exact aluToRegister_of_invalid_operand h .mul s
  | add a c => exact aluToRegister_of_invalid_operand h .add s
  | ldi a v =>
    obtain ⟨rfl, hr⟩ := single h
    simp [exec, execLdi, hr]
  | prn a =>
    obtain ⟨rfl, hr⟩ := single h
    simp [exec, execPrn, hr]
  | push a =>
    obtain ⟨rfl, hr⟩ := single h
    simp [exec, execPush, hr]
  | pop a =>
    obtain ⟨rfl, hr⟩ := single h
    simp [exec, execPop, hr]
  | call a =>
    obtain ⟨rfl, hr⟩ := single h
    simp [exec, execCall, hr]

/-- Settles O18: an invalid operand raises (`exec_of_invalid_operand`), and a raise changes the status alone. -/
theorem invalidRegisterOperandRaises : Obligations.InvalidRegisterOperandRaises := fun _ s _ h =>
  exec_of_invalid_operand h s

/-! ## The handlers on valid operands -/

section
variable {b b' v : Byte} {n n' : Fin Config.nReg} {s : State}

theorem exec_ldi (hn : b.toNat = n.val) : exec (.ldi b v) s = advance 3 (s.setReg n v) := by
  simp [exec, execLdi, reg_ok.mpr hn]

theorem exec_prn (hn : b.toNat = n.val) : exec (.prn b) s = advance 2 (s.emit (s.readReg n)) := by
  simp [exec, execPrn, reg_ok.mpr hn]

theorem aluToRegister_eq (hn : b.toNat = n.val) (hn' : b'.toNat = n'.val) (op : AluOp) :
    aluToRegister op b b' s = advance 3 (s.setReg n (aluApply op (s.readReg n) (s.readReg n'))) := by
  simp [aluToRegister, regPair, reg_ok.mpr hn, reg_ok.mpr hn']

theorem pushSlot_of_ne_zero (h0 : s.sp ≠ 0) : pushSlot s = .ok (s.sp - 1) := if_neg h0

theorem pushSlot_of_eq_zero (h0 : s.sp = 0) : pushSlot s = .error (.outOfBounds .stackOverflow) := if_pos h0

theorem exec_push (hn : b.toNat = n.val) (h0 : s.sp ≠ 0) :
    exec (.push b) s = advance 2 ((s.setSp (s.sp - 1)).setMem (s.mem.set (s.sp - 1).toNat (s.readReg n))) := by
  simp [exec, execPush, reg_ok.mpr hn, pushSlot_of_ne_zero h0]

theorem exec_push_full (hn : b.toNat = n.val) (h0 : s.sp = 0) :
    exec (.push b) s = raise (.outOfBounds .stackOverflow) s := by
  simp [exec, execPush, reg_ok.mpr hn, pushSlot_of_eq_zero h0]

theorem popByte_of_lt (h : s.sp.toNat < spInit.toNat) : popByte s = .ok (s.mem.get s.sp.toNat, s.setSp (s.sp + 1)) := by
  simp [popByte, Nat.not_le.mpr h, memRead_of_le _ (byte_le_addrMax s.sp)]

theorem popByte_of_ge (h : spInit.toNat ≤ s.sp.toNat) : popByte s = .error (.outOfBounds .stackUnderflow) :=
  if_pos h

theorem exec_pop (hn : b.toNat = n.val) (h : s.sp.toNat < spInit.toNat) :
    exec (.pop b) s = advance 2 ((s.setSp (s.sp + 1)).setReg n (s.mem.get s.sp.toNat)) := by
  simp [exec, execPop, reg_ok.mpr hn, popByte_of_lt h]

theorem exec_pop_empty (hn : b.toNat = n.val) (h : spInit.toNat ≤ s.sp.toNat) :
    exec (.pop b) s = raise (.outOfBounds .stackUnderflow) s := by
  simp [exec, execPop, reg_ok.mpr hn, popByte_of_ge h]

theorem exec_call (hn : b.toNat = n.val) (h0 : s.sp ≠ 0) (hpc : s.pc.toNat + 2 ≤ 255) :
    exec (.call b) s = .next (((s.setSp (s.sp - 1)).setMem
      (s.mem.set (s.sp - 1).toNat (BitVec.ofNat 8 (s.pc.toNat + 2)))).setPc (s.readReg n)) := by
  simp [exec, execCall, reg_ok.mpr hn, pushSlot_of_ne_zero h0, returnAddress, Nat.not_lt.mpr hpc]

theorem exec_call_full (hn : b.toNat = n.val) (h0 : s.sp = 0) :
    exec (.call b) s = raise (.outOfBounds .stackOverflow) s := by
  simp [exec, execCall, reg_ok.mpr hn, pushSlot_of_eq_zero h0]

theorem exec_call_past_top (hn : b.toNat = n.val) (h0 : s.sp ≠ 0) (hpc : 255 < s.pc.toNat + 2) :
    exec (.call b) s = raise (.outOfBounds (.memAddr (s.pc.toNat + 2))) s := by
  simp [exec, execCall, reg_ok.mpr hn, pushSlot_of_ne_zero h0, returnAddress, hpc]

theorem exec_ret (h : s.sp.toNat < spInit.toNat) :
    exec .ret s = .next ((s.setSp (s.sp + 1)).setPc (s.mem.get s.sp.toNat)) := by
  simp [exec, execRet, popByte_of_lt h]

theorem exec_ret_empty (h : spInit.toNat ≤ s.sp.toNat) : exec .ret s = raise (.outOfBounds .stackUnderflow) s := by
  simp [exec, execRet, popByte_of_ge h]

/-! ## The stack pointer's arithmetic -/

theorem toNat_sub_one_succ (h0 : s.sp ≠ 0) : (s.sp - 1).toNat + 1 = s.sp.toNat := by
  have hne : s.sp.toNat ≠ 0 := fun e => h0 (BitVec.eq_of_toNat_eq e)
  have := toNat_sub_one h0
  omega

theorem toNat_add_one_of_lt (h : s.sp.toNat < spInit.toNat) : (s.sp + 1).toNat = s.sp.toNat + 1 :=
  BitVec.toNat_add_of_lt (lt_of_le_of_lt (Nat.succ_le_of_lt h) spInit.isLt)

end

/-! ## What each instruction does when it completes, and where it raises -/

/-- Settles O9: the register write, then an advance that fits. -/
theorem ldiLoadsItsImmediate : Obligations.LdiLoadsItsImmediate := by
  intro s b v n hn hpc
  obtain ⟨p, hadv, hp⟩ := advance_fits (u := s.setReg n v) hpc
  exact ⟨_, (exec_ldi hn).trans hadv, s.readReg_setReg_self n v, fun r hr => s.readReg_setReg_ne v hr, hp,
    rfl, rfl, rfl, rfl⟩

/-- MUL and ADD on completion, for either operation of the ALU. -/
theorem aluToRegister_completes (op : AluOp) {s : State} {b1 b2 : Byte} {a b : Fin Config.nReg} (ha : b1.toNat = a.val)
    (hb : b2.toNat = b.val) (hpc : s.pc.toNat + 3 ≤ 255) :
    ∃ t, aluToRegister op b1 b2 s = .next t ∧ t.readReg a = aluApply op (s.readReg a) (s.readReg b) ∧
      (∀ r : Fin Config.nReg, r ≠ a → t.readReg r = s.readReg r) ∧
      t.pc.toNat = s.pc.toNat + 3 ∧ t.sp = s.sp ∧ t.mem = s.mem ∧ t.status = s.status ∧ t.out = s.out := by
  obtain ⟨p, hadv, hp⟩ := advance_fits (u := s.setReg a (aluApply op (s.readReg a) (s.readReg b))) hpc
  exact ⟨_, (aluToRegister_eq ha hb op).trans hadv, s.readReg_setReg_self a _, fun r hr => s.readReg_setReg_ne _ hr, hp,
    rfl, rfl, rfl, rfl⟩

/-- Settles O10: the shape MUL shares with ADD, at the product. -/
theorem mulMultipliesRegisters : Obligations.MulMultipliesRegisters := by
  intro s b1 b2 a b ha hb hpc
  obtain ⟨t, hx, hval, hframe⟩ := aluToRegister_completes .mul ha hb hpc
  exact ⟨t, hx, hval ▸ aluApply_mul_toNat _ _, hframe⟩

/-- Settles O11: the shape ADD shares with MUL, at the sum. -/
theorem addAddsRegisters : Obligations.AddAddsRegisters := by
  intro s b1 b2 a b ha hb hpc
  obtain ⟨t, hx, hval, hframe⟩ := aluToRegister_completes .add ha hb hpc
  exact ⟨t, hx, hval ▸ aluApply_add_toNat _ _, hframe⟩

/-- Settles O12: the append, then an advance that fits. -/
theorem prnEmitsItsRegister : Obligations.PrnEmitsItsRegister := by
  intro s b n hn hpc
  obtain ⟨p, hadv, hp⟩ := advance_fits (u := s.emit (s.readReg n)) hpc
  exact ⟨_, (exec_prn hn).trans hadv, rfl, hp, rfl, rfl, rfl, rfl⟩

/-- Settles O13: HLT is one status write. -/
theorem hltHaltsAndChangesNothingElse : Obligations.HltHaltsAndChangesNothingElse := fun s =>
  ⟨_, exec_hlt s, rfl, rfl, rfl, rfl, rfl, rfl⟩

/-- Settles O14: the write at the slot, then an advance that fits. -/
theorem pushStoresItsRegister : Obligations.PushStoresItsRegister := by
  intro s b n hn h0 hpc
  obtain ⟨p, hadv, hp⟩ :=
    advance_fits (u := (s.setSp (s.sp - 1)).setMem (s.mem.set (s.sp - 1).toNat (s.readReg n))) hpc
  exact ⟨s.sp - 1, _, pushSlot_of_ne_zero h0, toNat_sub_one_succ h0, (exec_push hn h0).trans hadv, rfl,
    s.mem.get_set_self _ _, fun _ ha => s.mem.get_set_ne _ ha, hp, rfl, rfl, rfl⟩

/-- Settles O15: the register write from the top byte, then an advance that fits. -/
theorem popLoadsTheTop : Obligations.PopLoadsTheTop := by
  intro s b n hn hsp hpc
  obtain ⟨p, hadv, hp⟩ := advance_fits (u := (s.setSp (s.sp + 1)).setReg n (s.mem.get s.sp.toNat)) hpc
  exact ⟨_, (exec_pop hn hsp).trans hadv, State.readReg_setReg_self _ n _, fun r hr => State.readReg_setReg_ne _ _ hr,
    toNat_add_one_of_lt hsp, hp, rfl, rfl, rfl⟩

/-- Settles O16: the write at the slot, and the jump. -/
theorem callPushesReturnAddressAndJumps : Obligations.CallPushesReturnAddressAndJumps := by
  intro s b n hn h0 hpc
  refine ⟨s.sp - 1, _, pushSlot_of_ne_zero h0, toNat_sub_one_succ h0, exec_call hn h0 hpc, rfl, ?_,
    fun _ ha => s.mem.get_set_ne _ ha, rfl, rfl, rfl, rfl⟩
  rw [State.setPc_mem, State.setMem_mem, Memory.get_set_self, toNat_ofNat_of_lt (by omega)]

/-- Settles O17: the pop into `PC`. -/
theorem retJumpsToTheTop : Obligations.RetJumpsToTheTop := fun _ hsp =>
  ⟨_, exec_ret hsp, rfl, toNat_add_one_of_lt hsp, rfl, rfl, rfl, rfl⟩

/-- Settles O19: the equations of PUSH and CALL at `SP = 0`. -/
theorem fullStackRaisesOverflow : Obligations.FullStackRaisesOverflow := by
  intro s b hb h0
  obtain ⟨n, hn⟩ := register_of_le hb
  exact ⟨exec_push_full hn h0, exec_call_full hn h0⟩

/-- Settles O20: the equations of POP and RET with `SP` at or above `SP_INIT`. -/
theorem emptyStackRaisesUnderflow : Obligations.EmptyStackRaisesUnderflow := by
  intro s b hb hsp
  obtain ⟨n, hn⟩ := register_of_le hb
  exact ⟨exec_pop_empty hn hsp, exec_ret_empty hsp⟩

/-- Settles O21: the equation of CALL whose return address is no byte. -/
theorem callReturnAddressPastTopRaises : Obligations.CallReturnAddressPastTopRaises := by
  intro s b hb h0 hpc
  obtain ⟨n, hn⟩ := register_of_le hb
  exact exec_call_past_top hn h0 hpc

/-- Settles O7: the ALU's operations are the word's own (`aluApply_add`, `aluApply_mul`), a commutative ring. -/
theorem aluCommutesAssociatesDistributes : Obligations.AluCommutesAssociatesDistributes := by
  intro a b c
  refine ⟨fun op => ?_, fun op => ?_, ?_⟩
  · cases op with
    | add => rw [aluApply_add, aluApply_add, BitVec.add_comm]
    | mul => rw [aluApply_mul, aluApply_mul, BitVec.mul_comm]
  · cases op with
    | add => simp only [aluApply_add, BitVec.add_assoc]
    | mul => simp only [aluApply_mul, BitVec.mul_assoc]
  · simp only [aluApply_add, aluApply_mul, BitVec.mul_add]

end Sys2Proof.Machine

/-! Construction, the ports, a launch and the run loop (spec/10_state.md section 7, spec/70_reset_and_hazards.md section 1 and
section 3). -/

namespace Sys2Proof.Machine

/-! ## The ports -/

section
variable {s : State} {a v : Byte}

theorem State.loadPort_of_ready (h : s.status = .ready) : s.loadPort a v = s.setMem (s.mem.set a.toNat v) := by
  simp [State.loadPort, h]

theorem State.loadPort_of_ne_ready (h : s.status ≠ .ready) : s.loadPort a v = s := by
  unfold State.loadPort
  split
  next hr => exact absurd hr h
  all_goals rfl

theorem State.run_of_ready (h : s.status = .ready) : s.run = s.setStatus .running := by
  simp [State.run, h]

theorem State.run_of_ne_ready (h : s.status ≠ .ready) : s.run = s := by
  unfold State.run
  split
  next hr => exact absurd hr h
  all_goals rfl

@[simp] theorem State.loadPort_status : (s.loadPort a v).status = s.status := by
  unfold State.loadPort
  split <;> rfl

end

theorem reset_readReg : ∀ r : Fin Config.nReg, State.reset.readReg r = 0 := by
  decide

/-- Settles O2: the reset state, evaluated. -/
theorem resetHoldsConstructionValues : Obligations.ResetHoldsConstructionValues :=
  ⟨reset_readReg, Memory.get_nil, rfl, rfl, rfl, rfl, rfl⟩

/-- Settles O3: the port's equations in Ready and outside it. -/
theorem loadPortWritesOnlyInReady : Obligations.LoadPortWritesOnlyInReady := fun s a v =>
  ⟨fun h => State.loadPort_of_ready h ▸ ⟨fun b => s.mem.get_set a.toNat b v, rfl, rfl, rfl, h, rfl⟩,
    State.loadPort_of_ne_ready⟩

/-- Settles O4: the command's equations in Ready and outside it. -/
theorem runCommandLeavesOnlyReady : Obligations.RunCommandLeavesOnlyReady := fun _ =>
  ⟨State.run_of_ready, State.run_of_ne_ready⟩

/-! ## A launch -/

/-- In Ready, loading bytes that fit below address 256 places them in memory and changes nothing else. -/
theorem State.loadFrom_of_ready {s : State} (h : s.status = .ready) {a : Nat} {vs : List Byte} (hfit : a + vs.length ≤ 256) :
    s.loadFrom a vs = s.setMem (s.mem.place a vs) := by
  induction vs generalizing s a with
  | nil => rfl
  | cons v vs ih =>
    rw [List.length_cons] at hfit
    have haddr : (BitVec.ofNat 8 a).toNat = a := toNat_ofNat_of_lt (by omega)
    have hle : ¬ a > Config.addrMax := by simp only [Config.addrMax]; omega
    rw [State.loadFrom, State.loadPort_of_ready h, haddr, Memory.place, if_neg hle]
    exact ih (s := s.setMem (s.mem.set a v)) h (by omega)

/-- Bytes placed within memory are read back in order; every other byte is kept. -/
theorem Memory.get_place (m : Memory) {a : Nat} {vs : List Byte} (hfit : a + vs.length ≤ 256) (b : Nat) :
    (m.place a vs).get b = if b < a then m.get b else vs.getD (b - a) (m.get b) := by
  induction vs generalizing m a with
  | nil => simp [Memory.place]
  | cons v vs ih =>
    rw [List.length_cons] at hfit
    have hle : ¬ a > Config.addrMax := by simp only [Config.addrMax]; omega
    rw [Memory.place, if_neg hle, ih _ (by omega)]
    rcases lt_trichotomy b a with hlt | rfl | hgt
    · rw [if_pos (by omega), if_pos hlt, Memory.get_set_ne _ _ (by omega)]
    · simp
    · rw [if_neg (by omega), if_neg (by omega), Memory.get_set_ne _ _ (by omega),
        show b - a = b - (a + 1) + 1 by omega, List.getD_cons_succ]

/-- The state a launch starts: construction with the image placed at 0, Running. -/
def launched (image : List Byte) : State := (State.reset.setMem (Memory.place [] 0 image)).setStatus .running

theorem launch_of_le {image : List Byte} (h : image.length ≤ 256) : launch image = some (launched image) := by
  rw [launch, if_pos h, State.loadFrom_of_ready rfl (by omega), State.run_of_ready rfl]
  rfl

theorem launch_eq_some {image : List Byte} {s : State} (h : launch image = some s) : s = launched image := by
  rcases Nat.lt_or_ge 256 image.length with hgt | hle
  · rw [launch, if_neg (Nat.not_le.mpr hgt)] at h
    exact nomatch h
  · rw [launch_of_le hle] at h
    exact (Option.some.inj h).symm

/-- Settles O5: the image is placed at 0 (`launch_of_le`) over a memory that reads 0, and read back by `Memory.get_place`. -/
theorem launchPlacesImageAndStarts : Obligations.LaunchPlacesImageAndStarts := by
  refine fun image => ⟨fun h => ⟨_, launch_of_le h, rfl, rfl, rfl, rfl, reset_readReg, fun a => ?_⟩,
    fun h => if_neg (Nat.not_le.mpr h)⟩
  exact Memory.get_place [] (by omega) a

/-! ## The run loop -/

/-- A run makes no step from a state without a next one. -/
theorem runLoop_of_no_next {code : Mnemonic → Byte} {s : State} (h : ∀ t, stepWith code s ≠ .next t) (k : Nat) :
    runLoop code k s = s := by
  cases k with
  | zero => rfl
  | succ k =>
    rw [runLoop]
    split
    next t ht => exact absurd ht (h t)
    all_goals rfl

theorem runLoop_succ_of_next {code : Mnemonic → Byte} {s t : State} (h : stepWith code s = .next t) (k : Nat) :
    runLoop code (k + 1) s = runLoop code k t := by
  rw [runLoop, h]

/-- Fuel adds up. -/
theorem runLoop_add (code : Mnemonic → Byte) (j k : Nat) (s : State) :
    runLoop code (j + k) s = runLoop code k (runLoop code j s) := by
  induction j generalizing s with
  | zero => rw [Nat.zero_add, runLoop]
  | succ j ih =>
    by_cases hnext : ∃ t, stepWith code s = .next t
    · obtain ⟨t, ht⟩ := hnext
      rw [Nat.add_right_comm, runLoop_succ_of_next ht, runLoop_succ_of_next ht, ih]
    · have hno : ∀ t, stepWith code s ≠ .next t := fun t ht => hnext ⟨t, ht⟩
      simp only [runLoop_of_no_next hno]

/-- An ended core has no step. -/
theorem stepWith_of_ended {code : Mnemonic → Byte} {s : State} (h : s.ended = true) (t : State) :
    stepWith code s ≠ .next t := by
  intro ht
  rw [State.ended, (stepWith_next ht).1] at h
  exact nomatch h

/-- Settles O49: fuel adds up (`runLoop_add`), and from an ended state the fuel that is left makes no step. -/
theorem endedRunIsFinal : Obligations.EndedRunIsFinal := by
  refine fun code s j k => ⟨runLoop_add code j k s, fun hended => ?_⟩
  rw [runLoop_add, runLoop_of_no_next (stepWith_of_ended hended)]

end Sys2Proof.Machine

/-! What a handler and a step leave in each field of the state, the invariant, and the errors (spec/10_state.md section 1 to
section 4, spec/60_exceptions.md section 1 and section 4). -/

namespace Sys2Proof.Machine

/-! ## What a handler did -/

/-- Why a handler raises before it writes anything (spec/60_exceptions.md R126). -/
inductive RaiseCause (i : Instr) (s : State) : ErrorReport → Prop
  | register {b : Byte} (hb : b ∈ i.registerOperands) (h : 7 < b.toNat) : RaiseCause i s (.outOfBounds (.regIndex b))
  | fullStack (hi : ∃ b, i = .push b ∨ i = .call b) (h : s.sp = 0) : RaiseCause i s (.outOfBounds .stackOverflow)
  | emptyStack (hi : i = .ret ∨ ∃ b, i = .pop b) (h : spInit.toNat ≤ s.sp.toNat) :
      RaiseCause i s (.outOfBounds .stackUnderflow)
  | returnAddress (hi : ∃ b, i = .call b) (h : 255 < s.pc.toNat + 2) :
      RaiseCause i s (.outOfBounds (.memAddr (s.pc.toNat + 2)))

/-- What the handler of a sequential instruction changed in `u` before its advance, seen in `SP` and memory: nothing, a
push or a pop. -/
inductive SequentialEffect (i : Instr) (s u : State) : Prop
  | none (hsp : u.sp = s.sp) (hmem : u.mem = s.mem)
  | push (hi : ∃ b, i = .push b) (h0 : s.sp ≠ 0) (hsp : u.sp = s.sp - 1)
      (hmem : ∃ v, u.mem = s.mem.set (s.sp - 1).toNat v)
  | pop (hi : ∃ b, i = .pop b) (h : s.sp.toNat < spInit.toNat) (hsp : u.sp.toNat = s.sp.toNat + 1) (hmem : u.mem = s.mem)

/-- The states a handler can answer, one constructor per way to end. -/
inductive Executed (i : Instr) (s : State) : State → Prop
  | raised {e : ErrorReport} (hx : exec i s = raise e s) (cause : RaiseCause i s e) : Executed i s (s.setStatus (.error e))
  | halted (hi : i = .hlt) : Executed i s (s.setStatus .halted)
  | advanced {u t : State} (hseq : i.isSequential = true) (hx : exec i s = advance i.length u) (hpc : u.pc = s.pc)
      (hst : u.status = s.status) (effect : SequentialEffect i s u) (hadv : advance i.length u = .next t) : Executed i s t
  | called {b v : Byte} {n : Fin Config.nReg} (hi : i = .call b) (hn : b.toNat = n.val) (h0 : s.sp ≠ 0) :
      Executed i s (((s.setSp (s.sp - 1)).setMem (s.mem.set (s.sp - 1).toNat v)).setPc (s.readReg n))
  | returned (hi : i = .ret) (h : s.sp.toNat < spInit.toNat) :
      Executed i s ((s.setSp (s.sp + 1)).setPc (s.mem.get s.sp.toNat))

/-- Every answer of a handler is one of `Executed`. -/
theorem exec_executed {i : Instr} {s t : State} (h : exec i s = .next t) : Executed i s t := by
  rcases exec_cases i s with
    ⟨e, he, hcause⟩ | ⟨hi, he⟩ | ⟨hseq, -, u, he, hpc, hst, heff⟩ | ⟨b, n, v, hi, hn, h0, he⟩ | ⟨hi, hlt, -, he⟩
  · obtain rfl := (raise_next _ _ _).mp (he.symm.trans h)
    refine .raised he ?_
    rcases hcause with ⟨b, hb, hge, rfl⟩ | ⟨hi, h0, rfl⟩ | ⟨hi, hge, rfl⟩ | ⟨b, hi, hgt, rfl⟩
    · exact .register hb (Nat.not_lt.mp hge)
    · exact .fullStack hi h0
    · exact .emptyStack hi hge
    · exact .returnAddress ⟨b, hi⟩ hgt
  · obtain rfl := Host.Outcome.next.inj (he.symm.trans h)
    exact .halted hi
  · refine .advanced hseq he hpc hst ?_ (he.symm.trans h)
    rcases heff with ⟨hsp, hmem, -⟩ | ⟨-, h0, hsp, b, v, hi, hmem⟩ | ⟨-, hlt, hsp, hmem, hi⟩
    · exact .none hsp hmem
    · exact .push ⟨b, hi⟩ h0 hsp ⟨v, hmem⟩
    · exact .pop hi hlt hsp hmem
  · obtain rfl := Host.Outcome.next.inj (he.symm.trans h)
    exact .called hi hn h0
  · obtain rfl := Host.Outcome.next.inj (he.symm.trans h)
    exact .returned hi hlt

/-! ## Field by field -/

/-- Memory after a handler: PUSH and CALL may write the byte below `SP`, and nothing else is written. -/
theorem exec_mem {i : Instr} {s t : State} (h : exec i s = .next t) :
    t.mem = s.mem ∨
    ((∃ b, i = .push b ∨ i = .call b) ∧ s.sp ≠ 0 ∧ ∃ v, t.mem = s.mem.set (s.sp - 1).toNat v) := by
  cases exec_executed h with
  | raised => exact .inl rfl
  | halted => exact .inl rfl
  | advanced _ _ _ _ effect hadv =>
    obtain ⟨-, htu, -⟩ := advance_fields hadv
    rw [htu]
    cases effect with
    | none _ hmem => exact .inl hmem
    | push hi h0 _ hmem => exact .inr ⟨hi.imp fun _ => .inl, h0, hmem⟩
    | pop _ _ _ hmem => exact .inl hmem
  | called hi _ h0 => exact .inr ⟨⟨_, .inr hi⟩, h0, _, rfl⟩
  | returned => exact .inl rfl

/-- `SP` after a handler: kept, one down by PUSH or CALL, or one up by POP or RET. -/
theorem exec_sp {i : Instr} {s t : State} (h : exec i s = .next t) :
    t.sp = s.sp ∨
    ((∃ b, i = .push b ∨ i = .call b) ∧ s.sp ≠ 0 ∧ t.sp = s.sp - 1) ∨
    ((i = .ret ∨ ∃ b, i = .pop b) ∧ s.sp.toNat < spInit.toNat ∧ t.sp.toNat = s.sp.toNat + 1) := by
  cases exec_executed h with
  | raised => exact .inl rfl
  | halted => exact .inl rfl
  | advanced _ _ _ _ effect hadv =>
    obtain ⟨-, -, htu, -⟩ := advance_fields hadv
    rw [htu]
    cases effect with
    | none hsp => exact .inl hsp
    | push hi h0 hsp => exact .inr (.inl ⟨hi.imp fun _ => .inl, h0, hsp⟩)
    | pop hi hlt hsp => exact .inr (.inr ⟨.inr hi, hlt, hsp⟩)
  | called hi _ h0 => exact .inr (.inl ⟨⟨_, .inr hi⟩, h0, rfl⟩)
  | returned hi hlt => exact .inr (.inr ⟨.inl hi, hlt, toNat_add_one_of_lt hlt⟩)

/-- A raise of a handler is an OutOfBounds error. -/
theorem RaiseCause.outOfBounds {i : Instr} {s : State} {e : ErrorReport} (h : RaiseCause i s e) :
    ∃ info, e = .outOfBounds info := by
  cases h <;> exact ⟨_, rfl⟩

/-- The status after any handler but HLT's: kept, or an OutOfBounds error. -/
theorem exec_status {i : Instr} {s t : State} (hi : i ≠ .hlt) (h : exec i s = .next t) :
    t.status = s.status ∨ ∃ info, t.status = .error (.outOfBounds info) := by
  cases exec_executed h with
  | raised _ cause =>
    obtain ⟨info, rfl⟩ := cause.outOfBounds
    exact .inr ⟨info, rfl⟩
  | halted hhlt => exact absurd hhlt hi
  | advanced _ _ _ hst _ hadv =>
    obtain ⟨-, -, -, -, hstatus⟩ := advance_fields hadv
    rwa [hst] at hstatus
  | called => exact .inl rfl
  | returned => exact .inl rfl

/-- `PC` after a handler: kept when it halts or raises, and otherwise on by the instruction's length, called or returned to. -/
theorem exec_pc {i : Instr} {s t : State} (h : exec i s = .next t) :
    (t.pc = s.pc ∧ (t.status = .halted ∨ ∃ e, t.status = .error e)) ∨
    (t.status = s.status ∧
      ((i.isSequential = true ∧ t.pc.toNat = s.pc.toNat + i.length) ∨
       (∃ b n, i = .call b ∧ b.toNat = n.val ∧ t.pc = s.readReg n) ∨
       (i = .ret ∧ t.pc = s.mem.get s.sp.toNat))) := by
  cases exec_executed h with
  | raised => exact .inl ⟨rfl, .inr ⟨_, rfl⟩⟩
  | halted => exact .inl ⟨rfl, .inl rfl⟩
  | advanced hseq _ hpc hst _ hadv =>
    rcases advance_cases _ _ _ hadv with ⟨-, hmoved, ht⟩ | ⟨-, rfl⟩
    · rw [hpc] at hmoved
      exact .inr ⟨by rw [ht, State.setPc_status, hst], .inl ⟨hseq, hmoved⟩⟩
    · exact .inl ⟨hpc, .inr ⟨_, rfl⟩⟩
  | called hi hn => exact .inr ⟨rfl, .inr (.inl ⟨_, _, hi, hn, rfl⟩)⟩
  | returned hi => exact .inr ⟨rfl, .inr (.inr ⟨hi, rfl⟩)⟩

/-- How a handler run in Running comes to end in Error: by its own raise, which changes the status alone, or by the advance
of a sequential instruction past 255. -/
theorem exec_error {i : Instr} {s t : State} {e : ErrorReport} (hs : s.status = .running) (h : exec i s = .next t)
    (he : t.status = .error e) :
    (exec i s = raise e s ∧ RaiseCause i s e ∧ t = s.setStatus (.error e)) ∨
    (i.isSequential = true ∧ 255 < s.pc.toNat + i.length ∧ e = .outOfBounds (.memAddr (s.pc.toNat + i.length)) ∧
      ∃ u, u.pc = s.pc ∧ u.status = .running ∧ exec i s = advance i.length u ∧ advance i.length u = raise e u) := by
  cases exec_executed h with
  | raised hx cause =>
    obtain rfl := Status.error.inj he
    exact .inl ⟨hx, cause, rfl⟩
  | halted => exact nomatch he
  | @advanced u _ hseq hx hpc hst _ hadv =>
    rcases advance_cases _ _ _ hadv with ⟨-, -, ht⟩ | ⟨hpast, rfl⟩
    · rw [ht, State.setPc_status, hst, hs] at he
      exact nomatch he
    · obtain rfl := Status.error.inj he
      exact .inr ⟨hseq, hpc ▸ hpast, by rw [hpc], u, hpc, hst.trans hs, hx, advance_of_gt hpast⟩
  | called => exact nomatch hs.symm.trans he
  | returned => exact nomatch hs.symm.trans he

/-! ## Step by step -/

/-- A fetched instruction ends at address 255 or below. -/
theorem fetchInstr_length {code : Mnemonic → Byte} {s : State} {i : Instr} (hf : fetchInstr code s = .ok i) :
    s.pc.toNat + i.length ≤ 256 := by
  have := fetchInstr_ok_bound hf
  rw [i.length_eq]
  omega

/-- Settles O37: an error of the fetch keeps `SP`, and a handler moves it as `exec_sp` says. -/
theorem stackPointerMovesByOne : Obligations.StackPointerMovesByOne := by
  intro code s t h
  obtain ⟨-, ⟨e, -, rfl⟩ | ⟨i, hf, hx⟩⟩ := stepWith_next h
  · exact .inl rfl
  · rcases exec_sp hx with hsp | ⟨hi, h0, hsp⟩ | ⟨hi, hlt, hsp⟩
    · exact .inl hsp
    · exact .inr (.inl ⟨hsp ▸ toNat_sub_one_succ h0, by simpa only [hf, Except.ok.injEq] using hi⟩)
    · exact .inr (.inr ⟨hsp, hlt, by simpa only [hf, Except.ok.injEq] using hi⟩)

/-- Settles O38: an error of the fetch keeps `PC`, and a handler moves it as `exec_pc` says. -/
theorem programCounterAfterAStep : Obligations.ProgramCounterAfterAStep := by
  intro code s t h
  obtain ⟨hs, ⟨e, -, rfl⟩ | ⟨i, hf, hx⟩⟩ := stepWith_next h
  · exact ⟨fun _ => rfl, fun hrun => nomatch hrun⟩
  · rcases exec_pc hx with ⟨hpc, hend⟩ | ⟨hst, hmove⟩
    · refine ⟨fun _ => hpc, fun hrun => ?_⟩
      rcases hend with hend | ⟨e, hend⟩
      · exact nomatch hrun.symm.trans hend
      · exact nomatch hrun.symm.trans hend
    · refine ⟨fun hne => absurd (hst.trans hs) hne, fun _ => ⟨i, hf, ?_⟩⟩
      rcases hmove with ⟨hseq, hpc⟩ | ⟨b, n, rfl, hn, hpc⟩ | ⟨rfl, hpc⟩
      · refine ⟨fun _ => hpc, fun b _ hi => ?_, fun hi => ?_⟩ <;> rw [hi] at hseq <;> exact nomatch hseq
      · refine ⟨fun hseq => (nomatch hseq), fun b' m hi hm => ?_, fun hi => (nomatch hi)⟩
        obtain rfl := Instr.call.inj hi
        rw [hpc, Fin.ext (hn.symm.trans hm)]
      · exact ⟨fun hseq => (nomatch hseq), fun _ _ hi => (nomatch hi), fun _ => hpc⟩

/-- Settles O34: the errors of the fetch, the raises of a handler, and an advance past the top; a fetched instruction lies in
memory, so the address past it is 256. -/
theorem everyErrorHasItsCause : Obligations.EveryErrorHasItsCause := by
  intro code s t e h he
  obtain ⟨hs, ⟨hnone, rfl⟩ | ⟨hoperand, rfl⟩ | ⟨i, hf, hx⟩⟩ := stepWith_cases h
  · exact .inl ⟨(Status.error.inj he).symm, mnemonicOf_eq_none.mp hnone⟩
  · exact .inr (.inl ⟨(Status.error.inj he).symm, .inl hoperand⟩)
  have hlen := fetchInstr_length hf
  rcases exec_error hs hx he with ⟨-, cause, -⟩ | ⟨hseq, hpast, rfl, -⟩
  · cases cause with
    | register hb hge => exact .inr (.inr (.inl ⟨i, _, hf, hb, hge, rfl⟩))
    | fullStack hi h0 =>
      obtain ⟨b, hi⟩ := hi
      exact .inr (.inr (.inr (.inl ⟨b, by simpa only [hf, Except.ok.injEq] using hi, h0, rfl⟩)))
    | emptyStack hi hge =>
      exact .inr (.inr (.inr (.inr ⟨by simpa only [hf, Except.ok.injEq] using hi, hge, rfl⟩)))
    | returnAddress hi hpast =>
      obtain ⟨b, rfl⟩ := hi
      have hlen : s.pc.toNat + 2 ≤ 256 := hlen
      rw [show s.pc.toNat + 2 = 256 by omega]
      exact .inr (.inl ⟨rfl, .inr (.inl ⟨b, hf, by omega⟩)⟩)
  · have h256 : s.pc.toNat + i.length = 256 := by omega
    rw [h256]
    exact .inr (.inl ⟨rfl, .inr (.inr ⟨i, hf, hseq, h256⟩)⟩)

/-! ## Sequential instructions at another address -/

/-- An instruction with a register operand above 7 raises RegIndex of one, whatever the state; any other's register operands
each name a register. -/
theorem raises_invalid_or_wellFormed (i : Instr) :
    (∃ b ∈ i.registerOperands, 7 < b.toNat ∧ ∀ s, exec i s = raise (.outOfBounds (.regIndex b)) s) ∨
    (i.wellFormed = true ∧ ∀ b ∈ i.registerOperands, ∃ n : Fin Config.nReg, b.toNat = n.val) := by
  rcases hfind : i.registerOperands.find? (fun c => decide (7 < c.toNat)) with _ | b
  · have hvalid : ∀ b ∈ i.registerOperands, b.toNat < Config.nReg := fun b hb => by
      have := List.find?_eq_none.mp hfind b hb
      simp only [decide_eq_true_eq] at this
      simp only [Config.nReg]
      omega
    exact .inr ⟨List.all_eq_true.mpr fun b hb => decide_eq_true (hvalid b hb), fun b hb => ⟨⟨_, hvalid b hb⟩, rfl⟩⟩
  · exact .inl ⟨b, List.mem_of_find?_eq_some hfind, by simpa using List.find?_some hfind, exec_of_invalid_operand hfind⟩

/-- What a sequential instruction does before its advance does not depend on `PC`: it raises before any write, or its
effects are those of one state `u`, at whatever address `p` it runs. -/
theorem exec_sequential {i : Instr} (hseq : i.isSequential = true) (s : State) :
    (∃ e, exec i s = raise e s ∧ RaiseCause i s e) ∨
    (i.wellFormed = true ∧ ∃ u : State, u.status = s.status ∧ ∀ p, exec i (s.setPc p) = advance i.length (u.setPc p)) := by
  rcases raises_invalid_or_wellFormed i with ⟨b, hb, hgt, hraise⟩ | ⟨hwf, hreg⟩
  · exact .inl ⟨_, hraise s, .register hb hgt⟩
  cases i with
  | hlt => exact nomatch hseq
  | call => exact nomatch hseq
  | ret => exact nomatch hseq
  | ldi b v =>
    obtain ⟨n, hn⟩ := hreg b (by simp [Instr.registerOperands])
    exact .inr ⟨hwf, s.setReg n v, rfl, fun p => exec_ldi hn⟩
  | prn b =>
    obtain ⟨n, hn⟩ := hreg b (by simp [Instr.registerOperands])
    exact .inr ⟨hwf, s.emit (s.readReg n), rfl, fun p => exec_prn hn⟩
  | mul b c =>
    obtain ⟨n, hn⟩ := hreg b (by simp [Instr.registerOperands])
    obtain ⟨m, hm⟩ := hreg c (by simp [Instr.registerOperands])
    exact .inr ⟨hwf, s.setReg n (aluApply .mul (s.readReg n) (s.readReg m)), rfl, fun p => aluToRegister_eq hn hm .mul⟩
  | add b c =>
    obtain ⟨n, hn⟩ := hreg b (by simp [Instr.registerOperands])
    obtain ⟨m, hm⟩ := hreg c (by simp [Instr.registerOperands])
    exact .inr ⟨hwf, s.setReg n (aluApply .add (s.readReg n) (s.readReg m)), rfl, fun p => aluToRegister_eq hn hm .add⟩
  | push b =>
    obtain ⟨n, hn⟩ := hreg b (by simp [Instr.registerOperands])
    by_cases h0 : s.sp = 0
    · exact .inl ⟨_, exec_push_full hn h0, .fullStack ⟨b, .inl rfl⟩ h0⟩
    · exact .inr ⟨hwf, (s.setSp (s.sp - 1)).setMem (s.mem.set (s.sp - 1).toNat (s.readReg n)), rfl,
        fun p => exec_push (s := s.setPc p) hn h0⟩
  | pop b =>
    obtain ⟨n, hn⟩ := hreg b (by simp [Instr.registerOperands])
    rcases Nat.lt_or_ge s.sp.toNat spInit.toNat with hlt | hge
    · exact .inr ⟨hwf, (s.setSp (s.sp + 1)).setReg n (s.mem.get s.sp.toNat), rfl,
        fun p => exec_pop (s := s.setPc p) hn hlt⟩
    · exact .inl ⟨_, exec_pop_empty hn hge, .emptyStack (.inr ⟨b, rfl⟩) hge⟩

/-- A sequential instruction with effects `u` whose advance would pass 255: it keeps the effects and raises, and at address 0
it completes with the same ones. -/
theorem exec_sequential_past_top {i : Instr} {s u : State}
    (hx : ∀ p, exec i (s.setPc p) = advance i.length (u.setPc p)) (hpast : 255 < s.pc.toNat + i.length) :
    exec i s = .next ((u.setPc s.pc).setStatus (.error (.outOfBounds (.memAddr (s.pc.toNat + i.length))))) ∧
    ∃ p, exec i { s with pc := 0 } = .next (u.setPc p) := by
  refine ⟨(hx s.pc).trans (advance_of_gt hpast), ?_⟩
  have hfits : (0 : Byte).toNat + i.length ≤ 255 := by
    have := i.length_le
    simp
    omega
  obtain ⟨p, hadv, -⟩ := advance_fits (u := u.setPc 0) hfits
  exact ⟨p, (hx 0).trans hadv⟩

/-- Settles O22: the hypotheses exclude every raise of the handler, so `exec_sequential_past_top` applies. -/
theorem advancePastTopKeepsEffectsAndRaises : Obligations.AdvancePastTopKeepsEffectsAndRaises := by
  intro i s hseq hwf hpush hpop hpast
  rcases exec_sequential hseq s with ⟨e, -, cause⟩ | ⟨-, u, hst, hx⟩
  · cases cause with
    | register hb hgt =>
      have := of_decide_eq_true (List.all_eq_true.mp hwf _ hb)
      simp only [Config.nReg] at this
      omega
    | fullStack hi h0 =>
      obtain ⟨b, rfl | rfl⟩ := hi
      · exact absurd h0 (hpush b rfl)
      · exact nomatch hseq
    | emptyStack hi hge =>
      obtain rfl | ⟨b, rfl⟩ := hi
      · exact nomatch hseq
      · exact absurd (hpop b rfl) (Nat.not_lt.mpr hge)
    | returnAddress hi =>
      obtain ⟨b, rfl⟩ := hi
      exact nomatch hseq
  · obtain ⟨hraise, p, hzero⟩ := exec_sequential_past_top hx hpast
    exact ⟨_, _, hraise, hzero, hst, rfl, rfl, rfl, rfl, rfl, rfl⟩

/-- Settles O33: the fetch and a handler raise before any write; what is left is an advance past the top, whose effects stand
(`exec_sequential_past_top`). -/
theorem errorsArePrecise : Obligations.ErrorsArePrecise := by
  intro code s t e h he
  obtain ⟨hs, ⟨e', -, rfl⟩ | ⟨i, hf, hx⟩⟩ := stepWith_next h
  · obtain rfl := Status.error.inj he
    exact .inl rfl
  rcases exec_error hs hx he with ⟨-, -, ht⟩ | ⟨hseq, hpast, rfl, -⟩
  · exact .inl ht
  rcases exec_sequential hseq s with ⟨e', hraise, -⟩ | ⟨hwf, u, hst, hu⟩
  · obtain rfl := (raise_next _ _ _).mp (hraise.symm.trans hx)
    obtain rfl := Status.error.inj he
    exact .inl rfl
  · have h256 : s.pc.toNat + i.length = 256 := by
      have := fetchInstr_length hf
      omega
    obtain ⟨hend, p, hzero⟩ := exec_sequential_past_top hu hpast
    obtain rfl := Host.Outcome.next.inj (hend.symm.trans hx)
    rw [h256]
    exact .inr ⟨rfl, rfl, i, hf, hseq, hwf, h256, _, hzero, hst.trans hs, rfl, rfl, rfl, rfl⟩

/-! ## The error report -/

theorem State.report_of_error {s : State} {e : ErrorReport} (h : s.status = .error e) :
    s.report = some (errorCode e.kind, e) := by
  simp [State.report, h]

theorem State.report_eq_none {s : State} : s.report = none ↔ ∀ e, s.status ≠ .error e := by
  unfold State.report
  split <;> simp [*]

/-- Settles O35: the report of each kind, and the kinds a step can raise (O34). -/
theorem reportCarriesCodeAndInfo : Obligations.ReportCarriesCodeAndInfo := by
  refine ⟨fun s => ⟨fun _ => State.report_of_error, fun _ => State.report_of_error, State.report_of_error,
    State.report_eq_none⟩, fun code s t e h he => ?_⟩
  rcases everyErrorHasItsCause code s t e h he with
    ⟨rfl, -⟩ | ⟨rfl, -⟩ | ⟨_, _, -, -, -, rfl⟩ | ⟨_, -, -, rfl⟩ | ⟨-, -, rfl⟩
  · exact .inl ⟨rfl, State.report_of_error he⟩
  all_goals exact .inr ⟨_, rfl, State.report_of_error he⟩

/-! ## The invariant -/

theorem State.inv_iff {s : State} :
    s.inv = true ↔ s.mem.wf = true ∧ s.sp.toNat ≤ spInit.toNat ∧ ∀ e, s.status = .error e → s.errorIsLegal e = true := by
  have hlegal : s.statusIsLegal = true ↔ ∀ e, s.status = .error e → s.errorIsLegal e = true := by
    unfold State.statusIsLegal
    split <;> simp [*]
  simp only [State.inv, Bool.and_eq_true, decide_eq_true_eq, hlegal, and_assoc]

/-- Memory after a step: at most the byte below `SP` is written. -/
theorem stepWith_mem {code : Mnemonic → Byte} {s t : State} (h : stepWith code s = .next t) :
    t.mem = s.mem ∨ (s.sp ≠ 0 ∧ ∃ v, t.mem = s.mem.set (s.sp - 1).toNat v) := by
  obtain ⟨-, ⟨_, -, rfl⟩ | ⟨i, -, hx⟩⟩ := stepWith_next h
  · exact .inl rfl
  · exact (exec_mem hx).imp_right And.right

/-- A step that ends in Error from a state with `SP` in 0..`SP_INIT` leaves a legal error: a stack error changes the status
alone (O33), so `SP` stands where the error says (O34). -/
theorem stepWith_errorIsLegal {code : Mnemonic → Byte} {s t : State} {e : ErrorReport} (h : stepWith code s = .next t)
    (hsp : s.sp.toNat ≤ spInit.toNat) (he : t.status = .error e) : t.errorIsLegal e = true := by
  have hprecise : e ≠ .outOfBounds (.memAddr 256) → t.sp = s.sp := fun hne => by
    rcases errorsArePrecise code s t e h he with rfl | ⟨h256, -⟩
    · rfl
    · exact absurd h256 hne
  rcases everyErrorHasItsCause code s t e h he with
    ⟨rfl, -⟩ | ⟨rfl, -⟩ | ⟨_, b, -, -, hb, rfl⟩ | ⟨_, -, h0, rfl⟩ | ⟨-, hge, rfl⟩
  · rfl
  · rfl
  · simp only [State.errorIsLegal, isRegister, Config.nReg, Bool.not_eq_true', decide_eq_false_iff_not]
    omega
  · rw [← hprecise (by simp)] at h0
    exact beq_iff_eq.mpr h0
  · rw [← hprecise (by simp)] at hge hsp
    exact beq_iff_eq.mpr (BitVec.eq_of_toNat_eq (le_antisymm hsp hge))

/-- Settles O28: a write at a byte address keeps the canonical form, `SP` stays in its range as it moves by one (O37), and an
error that ends the step is legal. -/
theorem everyStepKeepsTheInvariant : Obligations.EveryStepKeepsTheInvariant := by
  intro code s t hinv h
  obtain ⟨hwf, hsp, -⟩ := State.inv_iff.mp hinv
  refine State.inv_iff.mpr ⟨?_, ?_, fun e => stepWith_errorIsLegal h hsp⟩
  · rcases stepWith_mem h with hmem | ⟨-, v, hmem⟩
    · rwa [hmem]
    · rw [hmem]
      exact s.mem.wf_set _ v (s.sp - 1).isLt hwf
  · rcases stackPointerMovesByOne code s t h with hsame | ⟨hdown, -⟩ | ⟨hup, hlt, -⟩
    · rwa [hsame]
    · omega
    · omega

/-- A state in no Error meets the invariant by its memory and `SP` alone. -/
theorem State.inv_of_no_error {s : State} (hwf : s.mem.wf = true) (hsp : s.sp.toNat ≤ spInit.toNat)
    (hst : ∀ e, s.status ≠ .error e) : s.inv = true :=
  State.inv_iff.mpr ⟨hwf, hsp, fun e he => absurd he (hst e)⟩

/-- Settles O29: a load writes one byte in canonical form, `run` the status. -/
theorem constructionAndPortsMeetTheInvariant : Obligations.ConstructionAndPortsMeetTheInvariant := by
  refine ⟨by decide, fun s a v hinv => ?_⟩
  obtain ⟨hwf, hsp, -⟩ := State.inv_iff.mp hinv
  by_cases hs : s.status = .ready
  · rw [State.loadPort_of_ready hs, State.run_of_ready hs]
    exact ⟨State.inv_of_no_error (s.mem.wf_set _ v a.isLt hwf) hsp (by simp [hs]),
      State.inv_of_no_error hwf hsp (by simp)⟩
  · rw [State.loadPort_of_ne_ready hs, State.run_of_ne_ready hs]
    exact ⟨hinv, hinv⟩

/-- A step leaves Ready behind. -/
theorem stepWith_status_ne_ready {code : Mnemonic → Byte} {s t : State} (h : stepWith code s = .next t) :
    t.status ≠ .ready := by
  obtain ⟨hs, ⟨_, -, rfl⟩ | ⟨i, -, hx⟩⟩ := stepWith_next h
  · simp
  by_cases hi : i = .hlt
  · subst hi
    obtain rfl := Host.Outcome.next.inj hx
    simp
  · rcases exec_status hi hx with hst | ⟨info, hst⟩ <;> simp [hst, hs]

/-- Settles O30: a launch meets the invariant, since placing bytes keeps the canonical form, and every step keeps it (O28). -/
theorem reachableStatesMeetTheInvariant : Obligations.ReachableStatesMeetTheInvariant := by
  intro code s hreach
  induction hreach with
  | launched image s h =>
    obtain rfl := launch_eq_some h
    exact ⟨State.inv_of_no_error (Memory.wf_place _ 0 image Memory.wf_reset) (le_refl _) (by simp [launched]),
      by simp [launched]⟩
  | stepped s t _ h ih => exact ⟨everyStepKeepsTheInvariant code s t ih.1 h, stepWith_status_ne_ready h⟩

/-- Settles O36: a write goes to the byte below `SP` (`stepWith_mem`), which is below `SP_INIT`. -/
theorem bytesFromSpInitUpAreNeverWritten : Obligations.BytesFromSpInitUpAreNeverWritten := by
  intro code s t hinv h a ha
  obtain ⟨-, hsp, -⟩ := State.inv_iff.mp hinv
  rcases stepWith_mem h with hmem | ⟨h0, v, hmem⟩
  · rw [hmem]
  · have := toNat_sub_one_succ h0
    rw [hmem, Memory.get_set_ne _ _ (by omega)]

/-! ## Status transitions -/

/-- A step ends in Halted exactly when it ran HLT. -/
theorem stepWith_halted {code : Mnemonic → Byte} {s t : State} (h : stepWith code s = .next t) :
    t.status = .halted ↔ fetchInstr code s = .ok .hlt := by
  obtain ⟨hs, ⟨e, hf, rfl⟩ | ⟨i, hf, hx⟩⟩ := stepWith_next h
  · simp [hf]
  rw [hf, Except.ok.injEq]
  by_cases hi : i = .hlt
  · subst hi
    obtain rfl := Host.Outcome.next.inj hx
    simp
  · rcases exec_status hi hx with hst | ⟨info, hst⟩ <;> simp [hst, hs, hi]

/-- How a step comes to end in Error. -/
theorem stepWith_error {code : Mnemonic → Byte} {s t : State} {e : ErrorReport} (h : stepWith code s = .next t)
    (he : t.status = .error e) :
    fetchInstr code s = .error e ∨ ∃ i : Instr, fetchInstr code s = .ok i ∧ (exec i s = raise e s ∨
      (i.isSequential = true ∧ ∃ u : State, u.pc = s.pc ∧ u.status = .running ∧
        exec i s = advance i.length u ∧ advance i.length u = raise e u)) := by
  obtain ⟨hs, ⟨e', hf, rfl⟩ | ⟨i, hf, hx⟩⟩ := stepWith_next h
  · exact .inl (Status.error.inj he ▸ hf)
  · refine .inr ⟨i, hf, ?_⟩
    rcases exec_error hs hx he with ⟨hraise, -⟩ | ⟨hseq, -, -, hu⟩
    · exact .inl hraise
    · exact .inr ⟨hseq, hu⟩

/-- Settles O31: a step starts in Running (`stepWith_next`), halts by HLT and errs by a raise; an ended core has neither a
step nor an answer of a port. -/
theorem statusTransitions : Obligations.StatusTransitions := by
  refine ⟨rfl, fun s hs => by rw [State.run_of_ready hs]; rfl, fun code s t h => ⟨(stepWith_next h).1,
    stepWith_status_ne_ready h, stepWith_halted h, fun e => stepWith_error h⟩, fun code s a v hended => ?_⟩
  have hs : s.status ≠ .ready := fun hs => by simp [State.ended, hs] at hended
  exact ⟨stepWith_of_ended hended, State.loadPort_status, by rw [State.run_of_ne_ready hs]⟩

end Sys2Proof.Machine

/-! Which registers and which bytes an instruction reads and writes, and the frames (spec/10_state.md section 1,
spec/20_memory.md section 1 and section 4). -/

namespace Sys2Proof

/-- The register operand an instruction writes (spec/10_state.md section 1). -/
def Instr.destination : Instr → Option Byte
  | .hlt => none
  | .ldi rn _ => some rn
  | .prn _ => none
  | .mul ra _ => some ra
  | .add ra _ => some ra
  | .push _ => none
  | .pop rn => some rn
  | .call _ => none
  | .ret => none

end Sys2Proof

namespace Sys2Proof.Machine

/-! ## Registers written -/

theorem raise_regs {e : ErrorReport} {s t : State} (h : raise e s = .next t) : t.regs = s.regs := by
  rw [(raise_next _ _ _).mp h, State.setStatus_regs]

theorem advance_regs {n : Nat} {u t : State} (h : advance n u = .next t) : t.regs = u.regs :=
  (advance_fields h).1

theorem aluToRegister_regs {op : AluOp} {b c : Byte} {s t : State} (h : aluToRegister op b c s = .next t) :
    t.regs = s.regs ∨ ∃ (n : Fin Config.nReg) (v : Byte), b.toNat = n.val ∧ t.regs = s.regs.set n v := by
  rcases aluToRegister_cases op b c s with ⟨-, he⟩ | ⟨-, -, he⟩ | ⟨n, m, hn, -, he⟩ <;> rw [he] at h
  · exact .inl (raise_regs h)
  · exact .inl (raise_regs h)
  · exact .inr ⟨n, _, hn.symm, advance_regs h⟩

/-- A handler writes no register but its destination. -/
theorem exec_regs {i : Instr} {s t : State} (h : exec i s = .next t) :
    t.regs = s.regs ∨
    ∃ (b : Byte) (n : Fin Config.nReg) (v : Byte), i.destination = some b ∧ b.toNat = n.val ∧ t.regs = s.regs.set n v := by
  cases i with
  | hlt =>
    obtain rfl := Host.Outcome.next.inj h
    exact .inl rfl
  | ldi b v =>
    rcases execLdi_cases b v s with ⟨-, he⟩ | ⟨n, hn, he⟩ <;> rw [he] at h
    · exact .inl (raise_regs h)
    · exact .inr ⟨b, n, v, rfl, hn.symm, advance_regs h⟩
  | prn b =>
    rcases execPrn_cases b s with ⟨-, he⟩ | ⟨n, hn, he⟩ <;> rw [he] at h
    · exact .inl (raise_regs h)
    · exact .inl ((advance_regs h).trans rfl)
  | mul b c => exact (aluToRegister_regs h).imp_right fun ⟨n, v, hn, hregs⟩ => ⟨b, n, v, rfl, hn, hregs⟩
  | add b c => exact (aluToRegister_regs h).imp_right fun ⟨n, v, hn, hregs⟩ => ⟨b, n, v, rfl, hn, hregs⟩
  | push b =>
    rcases execPush_cases b s with ⟨-, he⟩ | ⟨-, -, he⟩ | ⟨n, -, -, he⟩ <;> rw [he] at h
    · exact .inl (raise_regs h)
    · exact .inl (raise_regs h)
    · exact .inl ((advance_regs h).trans rfl)
  | pop b =>
    rcases execPop_cases b s with ⟨-, he⟩ | ⟨-, -, he⟩ | ⟨n, hn, -, -, he⟩ <;> rw [he] at h
    · exact .inl (raise_regs h)
    · exact .inl (raise_regs h)
    · exact .inr ⟨b, n, _, rfl, hn.symm, advance_regs h⟩
  | call b =>
    rcases execCall_cases b s with ⟨-, he⟩ | ⟨-, -, he⟩ | ⟨-, -, -, he⟩ | ⟨n, ret, -, -, -, -, he⟩ <;> rw [he] at h
    · exact .inl (raise_regs h)
    · exact .inl (raise_regs h)
    · exact .inl (raise_regs h)
    · exact .inl (Host.Outcome.next.inj h ▸ rfl)
  | ret =>
    rcases execRet_cases s with ⟨-, he⟩ | ⟨-, -, he⟩ <;> rw [he] at h
    · exact .inl (raise_regs h)
    · exact .inl (Host.Outcome.next.inj h ▸ rfl)

theorem exec_regs_of_no_destination {i : Instr} {s t : State} (hi : i.destination = none) (h : exec i s = .next t) :
    t.regs = s.regs := by
  rcases exec_regs h with hregs | ⟨b, n, v, hb, -⟩
  · exact hregs
  · exact nomatch hi.symm.trans hb

theorem exec_readReg_of_ne {i : Instr} {s t : State} {b : Byte} {r : Fin Config.nReg} (hi : i.destination = some b)
    (hr : r.val ≠ b.toNat) (h : exec i s = .next t) : t.readReg r = s.readReg r := by
  rcases exec_regs h with hregs | ⟨c, n, v, hc, hn, hregs⟩
  · rw [State.readReg, hregs, State.readReg]
  · obtain rfl := Option.some.inj (hi.symm.trans hc)
    have hrn : r ≠ n := fun e => hr (by rw [hn, e])
    rw [← s.readReg_setReg_ne v hrn, State.readReg, hregs, State.readReg, State.setReg_regs]

/-! ## Frames -/

theorem exec_mem_of_no_store {i : Instr} {s t : State} (hi : ¬ ∃ b, i = .push b ∨ i = .call b) (h : exec i s = .next t) :
    t.mem = s.mem := by
  rcases exec_mem h with hmem | ⟨hstore, -⟩
  · exact hmem
  · exact absurd hstore hi

theorem exec_out_of_ne_prn {i : Instr} {s t : State} (hi : ∀ b, i ≠ .prn b) (h : exec i s = .next t) : t.out = s.out := by
  rcases exec_out h with hout | ⟨b, _, hb, -⟩
  · exact hout
  · exact absurd hb (hi b)

/-- LDI, MUL and ADD: the instructions with a destination, but for POP. -/
theorem exec_frame_of_destination {i : Instr} {s t : State} {b : Byte} (hdest : i.destination = some b)
    (hpop : ∀ c, i ≠ .pop c) (h : exec i s = .next t) :
    (∀ a, t.mem.get a = s.mem.get a) ∧ t.sp = s.sp ∧ t.out = s.out ∧
    (∀ r : Fin Config.nReg, r.val ≠ b.toNat → t.readReg r = s.readReg r) ∧
    (t.status = s.status ∨ ∃ info, t.status = .error (.outOfBounds info)) := by
  have hstore : ¬ ∃ b, i = .push b ∨ i = .call b := by
    rintro ⟨c, rfl | rfl⟩ <;> exact nomatch hdest
  have hprn : ∀ c, i ≠ .prn c := by
    rintro c rfl
    exact nomatch hdest
  have hhlt : i ≠ .hlt := by
    rintro rfl
    exact nomatch hdest
  refine ⟨fun a => by rw [exec_mem_of_no_store hstore h], ?_, exec_out_of_ne_prn hprn h,
    fun r hr => exec_readReg_of_ne hdest hr h, exec_status hhlt h⟩
  rcases exec_sp h with hsp | ⟨hi, -⟩ | ⟨rfl | ⟨c, hi⟩, -⟩
  · exact hsp
  · exact absurd hi hstore
  · exact nomatch hdest
  · exact absurd hi (hpop c)

/-- Settles O41: LDI, MUL and ADD have the destination `b` (`exec_frame_of_destination`). -/
theorem frameOfRegisterWrites : Obligations.FrameOfRegisterWrites := by
  intro s t b v h
  rcases h with hx | hx | hx
  · exact exec_frame_of_destination rfl (by simp) hx
  · exact exec_frame_of_destination rfl (by simp) hx
  · exact exec_frame_of_destination rfl (by simp) hx

/-- PRN leaves memory, the registers and `SP`, also where it raises. -/
theorem execPrn_frame {s t : State} {b : Byte} (h : exec (.prn b) s = .next t) :
    t.mem = s.mem ∧ t.regs = s.regs ∧ t.sp = s.sp := by
  refine ⟨exec_mem_of_no_store (by simp) h, exec_regs_of_no_destination rfl h, ?_⟩
  simpa using exec_sp h

/-- Settles O42: HLT writes the status alone; PRN is no stack instruction and has no destination (`execPrn_frame`). -/
theorem frameOfHaltAndPrint : Obligations.FrameOfHaltAndPrint := by
  refine fun s t b => ⟨fun h => ?_, fun h => Host.Outcome.next.inj h ▸ ⟨rfl, rfl, rfl⟩, fun h => ⟨?_, ?_⟩⟩
  · rcases h with hx | hx
    · exact Host.Outcome.next.inj hx ▸ ⟨fun _ => rfl, rfl, rfl⟩
    · obtain ⟨hmem, hregs, hsp⟩ := execPrn_frame hx
      exact ⟨fun a => by rw [hmem], hregs, hsp⟩
  · exact (exec_out h).imp_right fun ⟨_, n, _, _, hout⟩ => ⟨_, hout⟩
  · exact exec_status (by simp) h

/-- What POP and RET share. -/
theorem exec_frame_of_load {i : Instr} {s t : State} (hi : i = .ret ∨ ∃ b, i = .pop b) (h : exec i s = .next t) :
    (∀ a, t.mem.get a = s.mem.get a) ∧ t.out = s.out ∧ (t.sp = s.sp ∨ t.sp.toNat = s.sp.toNat + 1) ∧
    (t.status = s.status ∨ ∃ info, t.status = .error (.outOfBounds info)) := by
  obtain ⟨hstore, hprn, hhlt⟩ : (¬ ∃ b, i = .push b ∨ i = .call b) ∧ (∀ b, i ≠ .prn b) ∧ i ≠ .hlt := by
    rcases hi with rfl | ⟨b, rfl⟩ <;> simp
  refine ⟨fun a => by rw [exec_mem_of_no_store hstore h], exec_out_of_ne_prn hprn h, ?_, exec_status hhlt h⟩
  rcases exec_sp h with hsp | ⟨hpush, -⟩ | ⟨-, -, hsp⟩
  · exact .inl hsp
  · exact absurd hpush hstore
  · exact .inr hsp

/-- Settles O43: POP and RET store nothing (`exec_frame_of_load`), POP's destination is `b`, and RET has none. -/
theorem frameOfStackLoads : Obligations.FrameOfStackLoads := by
  intro s t b h
  obtain ⟨hmem, hout, hsp, hst⟩ := h.elim (exec_frame_of_load (.inr ⟨b, rfl⟩)) (exec_frame_of_load (.inl rfl))
  have hret : exec .ret s = .next t → ∀ r : Fin 8, t.readReg r = s.readReg r := fun hx r => by
    rw [State.readReg, exec_regs_of_no_destination rfl hx, State.readReg]
  refine ⟨hmem, hout, fun r hr => ?_, hsp, hst⟩
  rcases hr with hx | hne
  · exact hret hx r
  · exact h.elim (exec_readReg_of_ne rfl hne) (hret · r)

/-- What PUSH and CALL share. The slot is the byte below `SP`, and there is none when `SP` is 0. -/
theorem exec_frame_of_store {i : Instr} {s t : State} (hi : ∃ b, i = .push b ∨ i = .call b) (h : exec i s = .next t) :
    (∀ slot, pushSlot s = .ok slot →
      (∀ a, a ≠ slot.toNat → t.mem.get a = s.mem.get a) ∧ (t.sp = slot ∨ t.sp = s.sp)) ∧
    (∀ e, pushSlot s = .error e → (∀ a, t.mem.get a = s.mem.get a) ∧ t.sp = s.sp) ∧
    t.regs = s.regs ∧ t.out = s.out ∧ (t.status = s.status ∨ ∃ info, t.status = .error (.outOfBounds info)) := by
  obtain ⟨hload, hprn, hhlt, hdest⟩ :
      ¬ (i = .ret ∨ ∃ b, i = .pop b) ∧ (∀ b, i ≠ .prn b) ∧ i ≠ .hlt ∧ i.destination = none := by
    obtain ⟨b, rfl | rfl⟩ := hi <;> simp [Instr.destination]
  refine ⟨fun slot hslot => ?_, fun e herr => ?_, exec_regs_of_no_destination hdest h, exec_out_of_ne_prn hprn h,
    exec_status hhlt h⟩
  · obtain rfl : s.sp - 1 = slot := by
      rcases pushSlot_cases s with ⟨-, hnone⟩ | ⟨-, hsome, -⟩
      · exact nomatch hnone.symm.trans hslot
      · exact Except.ok.inj (hsome.symm.trans hslot)
    constructor
    · rintro a ha
      rcases exec_mem h with hmem | ⟨-, -, v, hmem⟩
      · rw [hmem]
      · rw [hmem, Memory.get_set_ne _ _ ha]
    · rcases exec_sp h with hsp | ⟨-, -, hsp⟩ | ⟨hpop, -⟩
      · exact .inr hsp
      · exact .inl hsp
      · exact absurd hpop hload
  · have h0 : s.sp = 0 := by
      rcases pushSlot_cases s with ⟨h0, -⟩ | ⟨-, hsome, -⟩
      · exact h0
      · exact nomatch herr.symm.trans hsome
    constructor
    · rcases exec_mem h with hmem | ⟨-, hne, -⟩
      · exact fun a => by rw [hmem]
      · exact absurd h0 hne
    · rcases exec_sp h with hsp | ⟨-, hne, -⟩ | ⟨hpop, -⟩
      · exact hsp
      · exact absurd h0 hne
      · exact absurd hpop hload

/-- Settles O44: the frame PUSH and CALL share (`exec_frame_of_store`). -/
theorem frameOfStackStores : Obligations.FrameOfStackStores := fun _ _ b h =>
  h.elim (exec_frame_of_store ⟨b, .inl rfl⟩) (exec_frame_of_store ⟨b, .inr rfl⟩)

/-! ## Registers read -/

theorem State.setReg_comm (s : State) {n r : Fin Config.nReg} (h : n ≠ r) (v w : Byte) :
    (s.setReg r v).setReg n w = (s.setReg n w).setReg r v := by
  rw [State.setReg, State.setReg, State.setReg, State.setReg, Vector.set_comm _ _ fun e => h (Fin.ext e).symm]

theorem State.setReg_setReg (s : State) (n : Fin Config.nReg) (v w : Byte) :
    (s.setReg n v).setReg n w = s.setReg n w := by
  rw [State.setReg, State.setReg, Vector.set_set]
  rfl

/-- An update of the state's data that neither looks at `PC` and the status nor changes them. -/
structure DataUpdate (f : State → State) : Prop where
  pc : ∀ s, (f s).pc = s.pc
  setPc : ∀ s p, f (s.setPc p) = (f s).setPc p
  setStatus : ∀ s st, f (s.setStatus st) = (f s).setStatus st

theorem dataUpdate_setReg (r : Fin Config.nReg) (v : Byte) : DataUpdate (·.setReg r v) :=
  ⟨fun _ => rfl, fun _ _ => rfl, fun _ _ => rfl⟩

theorem dataUpdate_setMem (m : Memory) : DataUpdate (·.setMem m) :=
  ⟨fun _ => rfl, fun _ _ => rfl, fun _ _ => rfl⟩

section
variable {f : State → State} {i : Instr} {s s' t u : State} {n : Nat} {e : ErrorReport}

/-- Data may be updated before a raise or after it. -/
theorem DataUpdate.of_raise (hf : DataUpdate f) (hs : exec i s = raise e s) (hs' : exec i (f s) = raise e (f s))
    (h : exec i s = .next t) : exec i (f s) = .next (f t) := by
  rw [hs', raise_next, (raise_next _ _ _).mp (hs.symm.trans h), hf.setStatus]

/-- Data may be updated before an advance or after it. -/
theorem DataUpdate.of_advance (hf : DataUpdate f) (hs : exec i s = advance n u) (hs' : exec i s' = advance n (f u))
    (h : exec i s = .next t) : exec i s' = .next (f t) := by
  rw [hs] at h
  rw [hs']
  rcases Nat.lt_or_ge Config.addrMax (u.pc.toNat + n) with hgt | hle
  · rw [advance_of_gt hgt, raise_next] at h
    rw [advance_of_gt (by rwa [hf.pc]), raise_next, h, hf.setStatus, hf.pc]
  · rw [advance_of_le hle] at h
    rw [advance_of_le (by rwa [hf.pc]), ← Host.Outcome.next.inj h, hf.setPc, hf.pc]

end

/-- MUL and ADD of registers other than `r` start their advance from the same state with `r` replaced. -/
theorem aluToRegister_setReg {b c : Byte} {n m r : Fin Config.nReg} (hn : b.toNat = n.val) (hm : c.toNat = m.val)
    (hnr : n ≠ r) (hmr : m ≠ r) (op : AluOp) (s : State) (v : Byte) :
    aluToRegister op b c (s.setReg r v) =
      advance 3 ((s.setReg n (aluApply op (s.readReg n) (s.readReg m))).setReg r v) := by
  rw [aluToRegister_eq hn hm, State.readReg_setReg_ne _ _ hnr, State.readReg_setReg_ne _ _ hmr, State.setReg_comm _ hnr]

/-- A register an instruction does not name may be replaced before it or after it. -/
theorem exec_setReg {i : Instr} {s t : State} {r : Fin Config.nReg} (hr : ∀ b ∈ i.registerOperands, b.toNat ≠ r.val)
    (h : exec i s = .next t) (v : Byte) : exec i (s.setReg r v) = .next (t.setReg r v) := by
  have hf := dataUpdate_setReg r v
  rcases raises_invalid_or_wellFormed i with ⟨b, -, -, hraise⟩ | ⟨-, hreg⟩
  · exact hf.of_raise (hraise s) (hraise _) h
  have operand : ∀ b ∈ i.registerOperands, ∃ n : Fin Config.nReg, b.toNat = n.val ∧ n ≠ r := fun b hb => by
    obtain ⟨n, hn⟩ := hreg b hb
    exact ⟨n, hn, fun e => hr b hb (hn.trans (congrArg Fin.val e))⟩
  cases i with
  | hlt => exact Host.Outcome.next.inj h ▸ rfl
  | ldi b w =>
    obtain ⟨n, hn, hnr⟩ := operand b (by simp [Instr.registerOperands])
    exact hf.of_advance (exec_ldi hn) ((exec_ldi hn).trans (congrArg _ (s.setReg_comm hnr v w))) h
  | prn b =>
    obtain ⟨n, hn, hnr⟩ := operand b (by simp [Instr.registerOperands])
    exact hf.of_advance (exec_prn hn) ((exec_prn hn).trans (by rw [s.readReg_setReg_ne v hnr]; rfl)) h
  | mul b c =>
    obtain ⟨n, hn, hnr⟩ := operand b (by simp [Instr.registerOperands])
    obtain ⟨m, hm, hmr⟩ := operand c (by simp [Instr.registerOperands])
    exact hf.of_advance (aluToRegister_eq hn hm .mul) (aluToRegister_setReg hn hm hnr hmr .mul s v) h
  | add b c =>
    obtain ⟨n, hn, hnr⟩ := operand b (by simp [Instr.registerOperands])
    obtain ⟨m, hm, hmr⟩ := operand c (by simp [Instr.registerOperands])
    exact hf.of_advance (aluToRegister_eq hn hm .add) (aluToRegister_setReg hn hm hnr hmr .add s v) h
  | push b =>
    obtain ⟨n, hn, hnr⟩ := operand b (by simp [Instr.registerOperands])
    by_cases h0 : s.sp = 0
    · exact hf.of_raise (exec_push_full hn h0) (exec_push_full hn h0) h
    · exact hf.of_advance (exec_push hn h0)
        ((exec_push (s := s.setReg r v) hn h0).trans (by rw [s.readReg_setReg_ne v hnr]; rfl)) h
  | pop b =>
    obtain ⟨n, hn, hnr⟩ := operand b (by simp [Instr.registerOperands])
    rcases Nat.lt_or_ge s.sp.toNat spInit.toNat with hlt | hge
    · exact hf.of_advance (exec_pop hn hlt) ((exec_pop (s := s.setReg r v) hn hlt).trans
        (congrArg _ ((s.setSp (s.sp + 1)).setReg_comm hnr v _))) h
    · exact hf.of_raise (exec_pop_empty hn hge) (exec_pop_empty hn hge) h
  | call b =>
    obtain ⟨n, hn, hnr⟩ := operand b (by simp [Instr.registerOperands])
    by_cases h0 : s.sp = 0
    · exact hf.of_raise (exec_call_full hn h0) (exec_call_full hn h0) h
    rcases Nat.lt_or_ge 255 (s.pc.toNat + 2) with hgt | hle
    · exact hf.of_raise (exec_call_past_top hn h0 hgt) (exec_call_past_top (s := s.setReg r v) hn h0 hgt) h
    · obtain rfl := Host.Outcome.next.inj ((exec_call hn h0 hle).symm.trans h)
      rw [exec_call (s := s.setReg r v) hn h0 hle, s.readReg_setReg_ne v hnr]
      rfl
  | ret =>
    rcases Nat.lt_or_ge s.sp.toNat spInit.toNat with hlt | hge
    · obtain rfl := Host.Outcome.next.inj ((exec_ret hlt).symm.trans h)
      exact exec_ret (s := s.setReg r v) hlt
    · exact hf.of_raise (exec_ret_empty hge) (exec_ret_empty hge) h

/-- Settles O39: an instruction commutes with the registers it does not name (`exec_setReg`); LDI and POP overwrite their
destination; the others write none but their first operand's (`exec_regs`). -/
theorem registersReadAndWrittenAreThoseNamed : Obligations.RegistersReadAndWrittenAreThoseNamed := by
  refine ⟨fun i s t r v hr h => exec_setReg hr h v, fun s b v w n hn => ?_, fun s b w n hn hlt => ?_,
    fun s t b h => ?_, fun s t b1 b2 r h hr => ?_⟩
  · rw [exec_ldi hn, exec_ldi hn, State.setReg_setReg]
  · rw [exec_pop hn hlt, exec_pop (s := s.setReg n w) hn hlt]
    exact congrArg (advance 2) (State.setReg_setReg (s.setSp (s.sp + 1)) n w _)
  · rcases h with h | h | h | h | h <;> exact exec_regs_of_no_destination rfl h
  · exact h.elim (exec_readReg_of_ne rfl hr.symm) (exec_readReg_of_ne rfl hr.symm)

/-! ## Bytes read and written -/

/-- An instruction that stores nothing runs alike over another memory, when that agrees at `SP` for POP and RET. -/
theorem exec_setMem_of_no_store {i : Instr} {s t : State} {m : Memory} (hi : ¬ ∃ b, i = .push b ∨ i = .call b)
    (htop : (i = .ret ∨ ∃ b, i = .pop b) → m.get s.sp.toNat = s.mem.get s.sp.toNat) (h : exec i s = .next t) :
    exec i (s.setMem m) = .next (t.setMem m) := by
  have hf := dataUpdate_setMem m
  rcases raises_invalid_or_wellFormed i with ⟨b, -, -, hraise⟩ | ⟨-, hreg⟩
  · exact hf.of_raise (hraise s) (hraise _) h
  cases i with
  | hlt => exact Host.Outcome.next.inj h ▸ rfl
  | ldi b w =>
    obtain ⟨n, hn⟩ := hreg b (by simp [Instr.registerOperands])
    exact hf.of_advance (exec_ldi (s := s) hn) (exec_ldi hn) h
  | prn b =>
    obtain ⟨n, hn⟩ := hreg b (by simp [Instr.registerOperands])
    exact hf.of_advance (exec_prn hn) (exec_prn hn) h
  | mul b c =>
    obtain ⟨n, hn⟩ := hreg b (by simp [Instr.registerOperands])
    obtain ⟨k, hk⟩ := hreg c (by simp [Instr.registerOperands])
    exact hf.of_advance (aluToRegister_eq (s := s) hn hk .mul) (aluToRegister_eq hn hk .mul) h
  | add b c =>
    obtain ⟨n, hn⟩ := hreg b (by simp [Instr.registerOperands])
    obtain ⟨k, hk⟩ := hreg c (by simp [Instr.registerOperands])
    exact hf.of_advance (aluToRegister_eq (s := s) hn hk .add) (aluToRegister_eq hn hk .add) h
  | push b => exact absurd ⟨b, .inl rfl⟩ hi
  | call b => exact absurd ⟨b, .inr rfl⟩ hi
  | pop b =>
    obtain ⟨n, hn⟩ := hreg b (by simp [Instr.registerOperands])
    rcases Nat.lt_or_ge s.sp.toNat spInit.toNat with hlt | hge
    · refine hf.of_advance (exec_pop hn hlt) ((exec_pop (s := s.setMem m) hn hlt).trans ?_) h
      rw [State.setMem_mem, State.setMem_sp, htop (.inr ⟨b, rfl⟩)]
      rfl
    · exact hf.of_raise (exec_pop_empty hn hge) (exec_pop_empty hn hge) h
  | ret =>
    rcases Nat.lt_or_ge s.sp.toNat spInit.toNat with hlt | hge
    · obtain rfl := Host.Outcome.next.inj ((exec_ret hlt).symm.trans h)
      rw [exec_ret (s := s.setMem m) hlt, State.setMem_mem, State.setMem_sp, htop (.inl rfl)]
      rfl
    · exact hf.of_raise (exec_ret_empty hge) (exec_ret_empty hge) h

/-- PUSH and CALL over another memory: they raise over both, or write one byte below `SP` in both. -/
theorem exec_setMem_of_store {i : Instr} {s t : State} (hi : ∃ b, i = .push b ∨ i = .call b) (h : exec i s = .next t)
    (m : Memory) :
    (t.mem = s.mem ∧ exec i (s.setMem m) = .next (t.setMem m)) ∨
    (s.sp ≠ 0 ∧ ∃ v, t.mem = s.mem.set (s.sp - 1).toNat v ∧
      exec i (s.setMem m) = .next (t.setMem (m.set (s.sp - 1).toNat v))) := by
  have of_raise : ∀ {e}, exec i s = raise e s → exec i (s.setMem m) = raise e (s.setMem m) →
      t.mem = s.mem ∧ exec i (s.setMem m) = .next (t.setMem m) := fun {e} hs hs' =>
    ⟨by rw [(raise_next _ _ _).mp (hs.symm.trans h), State.setStatus_mem], (dataUpdate_setMem m).of_raise hs hs' h⟩
  rcases raises_invalid_or_wellFormed i with ⟨b, -, -, hraise⟩ | ⟨-, hreg⟩
  · exact .inl (of_raise (hraise s) (hraise _))
  obtain ⟨b, rfl | rfl⟩ := hi <;> obtain ⟨n, hn⟩ := hreg b (by simp [Instr.registerOperands]) <;>
    by_cases h0 : s.sp = 0
  · exact .inl (of_raise (exec_push_full hn h0) (exec_push_full hn h0))
  · refine .inr ⟨h0, s.readReg n, ?_, (dataUpdate_setMem _).of_advance (exec_push hn h0) (exec_push hn h0) h⟩
    obtain ⟨-, hmem, -⟩ := advance_fields ((exec_push hn h0).symm.trans h)
    exact hmem
  · exact .inl (of_raise (exec_call_full hn h0) (exec_call_full hn h0))
  · rcases Nat.lt_or_ge 255 (s.pc.toNat + 2) with hgt | hle
    · exact .inl (of_raise (exec_call_past_top hn h0 hgt) (exec_call_past_top (s := s.setMem m) hn h0 hgt))
    · obtain rfl := Host.Outcome.next.inj ((exec_call hn h0 hle).symm.trans h)
      exact .inr ⟨h0, _, rfl, exec_call (s := s.setMem m) hn h0 hle⟩

/-- The fetch reads only the bytes of the instruction it answers. -/
theorem fetchInstr_setMem {code : Mnemonic → Byte} {s : State} {i : Instr} {m : Memory} (hf : fetchInstr code s = .ok i)
    (hbytes : ∀ k, k < 1 + arity i.mnemonic → m.get (s.pc.toNat + k) = s.mem.get (s.pc.toNat + k)) :
    fetchInstr code (s.setMem m) = .ok i := by
  have same : ∀ {k b}, k < 1 + arity i.mnemonic → instrByte s k = .ok b → instrByte (s.setMem m) k = .ok b :=
    fun {k b} hk hb => by
      obtain ⟨hle, rfl⟩ := instrByte_ok.mp hb
      exact instrByte_ok.mpr ⟨hle, (hbytes k hk).symm⟩
  obtain ⟨op, hop, hm, hops⟩ := decodeFrom_ok hf
  have := i.operands_length
  exact decodeFrom_of_bytes (same (by omega) hop) hm fun k hk => same (by omega) (hops k hk)

/-- Settles O40: over the other memory the fetch answers the same instruction (`fetchInstr_setMem`), which runs alike and
writes at most the one byte below `SP`. -/
theorem memoryAccessesAreThoseOfTheTable : Obligations.MemoryAccessesAreThoseOfTheTable := by
  intro code s m i hs hf hbytes htop
  obtain ⟨t, hx⟩ := exec_completes i s
  have hstep := (stepWith_of_fetch_ok hs hf).trans hx
  have hrun : ∀ {t'}, exec i (s.setMem m) = .next t' → stepWith code { s with mem := m } = .next t' := fun hx' =>
    (stepWith_of_fetch_ok (s := s.setMem m) hs (fetchInstr_setMem hf hbytes)).trans hx'
  by_cases hi : ∃ b, i = .push b ∨ i = .call b
  · rcases exec_setMem_of_store hi hx m with ⟨hmem, hx'⟩ | ⟨h0, v, hmem, hx'⟩
    · exact ⟨t, _, hstep, hrun hx', rfl, rfl, rfl, rfl, rfl, fun a => .inl ⟨by rw [hmem], rfl⟩⟩
    · refine ⟨t, _, hstep, hrun hx', rfl, rfl, rfl, rfl, rfl, fun a => ?_⟩
      rw [hmem, State.setMem_mem]
      by_cases ha : a = (s.sp - 1).toNat
      · exact .inr ⟨ha ▸ toNat_sub_one_succ h0, hi, by rw [ha, Memory.get_set_self, Memory.get_set_self]⟩
      · exact .inl ⟨Memory.get_set_ne _ _ ha, Memory.get_set_ne _ _ ha⟩
  · exact ⟨t, _, hstep, hrun (exec_setMem_of_no_store hi htop hx), rfl, rfl, rfl, rfl, rfl,
      fun a => .inl ⟨by rw [exec_mem_of_no_store hi hx], rfl⟩⟩

end Sys2Proof.Machine

/-! Laws of the stack, the subroutine and the fetch after a write (spec/44_stack.md, spec/45_subroutine.md,
spec/20_memory.md section 4). -/

namespace Sys2Proof.Machine

theorem execAll_cons_of_next {i : Instr} {s t : State} (h : exec i s = .next t) (is : List Instr) :
    execAll (i :: is) s = execAll is t := by
  rw [execAll, h]

/-- Settles O45: the pop (O15) reads at the slot the value the push (O14) stored there. -/
theorem pushThenPopRestores : Obligations.PushThenPopRestores := by
  intro s b n hn h0 hsp hpc
  obtain ⟨slot, t, -, hslot, hpush, rfl, htop, -, htpc, htregs, htst, -⟩ :=
    pushStoresItsRegister s b n hn h0 (by omega)
  obtain ⟨u, hpop, hval, hother, husp, hupc, humem, hust, -⟩ := popLoadsTheTop t b n hn (by omega) (by omega)
  refine ⟨u, ?_, regs_ext fun r => ?_, BitVec.eq_of_toNat_eq (by omega), ?_, by omega, hust.trans htst⟩
  · rw [execAll_cons_of_next hpush, execAll_cons_of_next hpop, execAll]
  · change u.readReg r = s.readReg r
    by_cases hr : r = n
    · rw [hr, hval, htop]
    · rw [hother r hr, State.readReg, htregs, State.readReg]
  · rw [humem, ← htop, ← hslot, Nat.add_sub_cancel]

/-- Settles O46: RET (O17) reads the byte CALL (O16) stored below its `SP`. -/
theorem retResumesAfterTheCall : Obligations.RetResumesAfterTheCall := by
  intro s b hb hpc h0 hsp
  obtain ⟨n, hn⟩ := register_of_le hb
  obtain ⟨slot, t, -, hslot, hcall, -, hret, -⟩ := callPushesReturnAddressAndJumps s b n hn h0 (by omega)
  refine ⟨t, hcall, fun u husp hbyte => ?_⟩
  obtain ⟨w, hxw, hwpc, hwsp, -⟩ := retJumpsToTheTop u (by omega)
  refine ⟨w, hxw, ?_, BitVec.eq_of_toNat_eq (by omega)⟩
  have hslot' : s.sp.toNat - 1 = slot.toNat := by omega
  have husp' : u.sp.toNat = s.sp.toNat - 1 := by omega
  rw [hwpc, husp', hbyte, hslot', hret]

/-! ## Sequences of pushes and pops -/

theorem toNat_ofNat_register (n : Fin Config.nReg) : (BitVec.ofNat 8 n.val).toNat = n.val :=
  toNat_ofNat_of_lt (lt_trans n.isLt (by decide))

/-- A sequence of pushes stores the values downwards from the old `SP`, the first one highest, and writes nothing from the
old `SP` up. -/
theorem execAll_pushes (ns : List (Fin Config.nReg)) (s : State) (hsp : ns.length ≤ s.sp.toNat)
    (hpc : s.pc.toNat + 2 * ns.length ≤ 255) :
    ∃ t, execAll (ns.map fun n => .push (BitVec.ofNat 8 n.val)) s = .next t ∧ t.sp.toNat + ns.length = s.sp.toNat ∧
      t.pc.toNat = s.pc.toNat + 2 * ns.length ∧ t.status = s.status ∧
      (∀ j (hj : j < ns.length), t.mem.get (s.sp.toNat - 1 - j) = s.readReg ns[j]) ∧
      ∀ a, s.sp.toNat ≤ a → t.mem.get a = s.mem.get a := by
  induction ns generalizing s with
  | nil => exact ⟨s, rfl, rfl, rfl, rfl, fun _ hj => absurd hj (Nat.not_lt_zero _), fun _ _ => rfl⟩
  | cons n ns ih =>
    simp only [List.length_cons] at hsp hpc ⊢
    have h0 : s.sp ≠ 0 := fun h => by simp [h] at hsp
    obtain ⟨slot, s', -, hslot, hpush, rfl, htop, hframe, hs'pc, hs'regs, hs'st, -⟩ :=
      pushStoresItsRegister s _ n (toNat_ofNat_register n) h0 (by omega)
    obtain ⟨t, hrest, htsp, htpc, htst, hvals, habove⟩ := ih s' (by omega) (by omega)
    refine ⟨t, ?_, by omega, by omega, htst.trans hs'st, fun j hj => ?_, fun a ha => ?_⟩
    · rw [List.map_cons, execAll_cons_of_next hpush, hrest]
    · cases j with
      | zero =>
        rw [show s.sp.toNat - 1 - 0 = s'.sp.toNat by omega, habove _ (le_refl _), htop, List.getElem_cons_zero]
      | succ j =>
        rw [show s.sp.toNat - 1 - (j + 1) = s'.sp.toNat - 1 - j by omega, hvals j (by omega), State.readReg, hs'regs,
          State.readReg, List.getElem_cons_succ]
    · rw [habove a (by omega), hframe a (by omega)]

/-- A sequence of pops into one register leaves it the byte last read, `k` above the old top. -/
theorem execAll_pops {d : Byte} {e : Fin Config.nReg} (hd : d.toNat = e.val) (k : Nat) (t : State)
    (hsp : t.sp.toNat + k < spInit.toNat) (hpc : t.pc.toNat + 2 * (k + 1) ≤ 255) :
    ∃ u, execAll (List.replicate (k + 1) (.pop d)) t = .next u ∧ u.readReg e = t.mem.get (t.sp.toNat + k) ∧
      u.sp.toNat = t.sp.toNat + (k + 1) ∧ u.status = t.status := by
  induction k generalizing t with
  | zero =>
    obtain ⟨u, hpop, hval, -, husp, -, -, hust, -⟩ := popLoadsTheTop t d e hd hsp (by omega)
    exact ⟨u, execAll_cons_of_next hpop [], hval, husp, hust⟩
  | succ k ih =>
    obtain ⟨t', hpop, -, -, ht'sp, ht'pc, ht'mem, ht'st, -⟩ := popLoadsTheTop t d e hd (by omega) (by omega)
    obtain ⟨u, hrest, hval, husp, hust⟩ := ih t' (by omega) (by omega)
    refine ⟨u, ?_, ?_, by omega, hust.trans ht'st⟩
    · rw [List.replicate_succ, execAll_cons_of_next hpop, hrest]
    · rw [hval, ht'mem, ht'sp, Nat.add_assoc, Nat.add_comm 1]

/-- Settles O47: pop `k + 1` reads `k` above the new top (`execAll_pops`), where the push `k + 1` from the end stored
(`execAll_pushes`). -/
theorem stackIsLastInFirstOut : Obligations.StackIsLastInFirstOut := by
  intro s ns d e hd hlen hsp hpc
  obtain ⟨t, hpushes, htsp, htpc, htst, hvals, -⟩ := execAll_pushes ns s hlen (by omega)
  refine ⟨t, hpushes, htsp, fun k hk => ?_⟩
  obtain ⟨u, hpops, hval, husp, hust⟩ := execAll_pops hd k t (by omega) (by omega)
  refine ⟨u, hpops, ?_, by omega, hust.trans htst⟩
  rw [hval, ← hvals _ (by omega), show t.sp.toNat + k = s.sp.toNat - 1 - (ns.length - 1 - k) by omega]

/-! ## The fetch after a write -/

/-- An instruction byte that lies at the byte below an `SP` is memory's byte there. -/
theorem instrByte_below {t : State} {sp : Byte} {k : Nat} (h0 : sp ≠ 0) (h : t.pc.toNat + k + 1 = sp.toNat) :
    instrByte t k = .ok (t.mem.get (sp - 1).toNat) := by
  have hk : t.pc.toNat + k = (sp - 1).toNat := by
    rw [toNat_sub_one h0, ← h, Nat.add_sub_cancel]
  rw [instrByte_of_le (hk ▸ byte_le_addrMax _), hk]

/-- Settles O48: PUSH stores before its advance, and CALL before its jump; the fetch reads memory as it then is. -/
theorem nextFetchSeesTheWrittenByte : Obligations.NextFetchSeesTheWrittenByte := by
  refine ⟨fun s t b n k hn h0 h _ hk => ?_, fun s t b k hb h0 hpc h hk => ?_⟩
  · obtain ⟨-, hmem, -⟩ := advance_fields ((exec_push hn h0).symm.trans h)
    rw [instrByte_below h0 hk, hmem, State.setMem_mem, Memory.get_set_self]
  · obtain ⟨n, hn⟩ := register_of_le hb
    obtain rfl := Host.Outcome.next.inj ((exec_call hn h0 hpc).symm.trans h)
    refine ⟨_, instrByte_below h0 hk, ?_⟩
    rw [State.setPc_mem, State.setMem_mem, Memory.get_set_self, toNat_ofNat_of_lt (by omega)]

end Sys2Proof.Machine
